-- ==== Sys2Proof/Word.lean ====
section
/-! DEFINITION. The value types of the block: the widths of `00_scope.md` rule R5 and of `10_state.md` rules R18
and R20, the four formats of `30_encoding.md` rule R45, and the five legal quantum lengths. -/

namespace Sys2Proof

/-- An input byte (`BYTE_W = 8`) and a symbol (`SYM_W = 8`, format `S`); unsigned (rules R5, R7, R48). -/
abbrev Byte := BitVec 8

/-- A quintet (`QUINT_W = 5`) and a ROM address (format `A`); unsigned 0 to 31 (rules R5, R48). -/
abbrev Quintet := BitVec 5

/-- The five byte lanes `in_data`, and the 40-bit quantum string `w` (`QBITS = 40`; rules R5, R18, R20). -/
abbrev Data := BitVec 40

/-- The length wire `in_len` (`LEN_W = 3`; rules R5, R18). -/
abbrev LenBits := BitVec 3

/-- A transaction word, format `T` (`TW_W = 43`; rules R5, R46). -/
abbrev TxWord := BitVec 43

/-- A beat, format `B` (`BEAT_W = 64`; rules R5, R47). -/
abbrev Beat := BitVec 64

/-- The legal quantum lengths, 1 to 5 (`NMIN`, `NMAX` of rule R5). A reserved length (0, 6, 7; rule R52) is no
value of this type, so no function of a quantum can be asked for one. -/
inductive QLen where
  | one
  | two
  | three
  | four
  | five
  deriving DecidableEq, Repr

/-- What can be laid before the decoder: a transaction word on the block's ports (format `T`, rule R46), or an
address on the character ROM's own read port (format `A`, rules R48 and R49). -/
inductive Encoded where
  | transaction (tw : TxWord)
  | romAddress (a : Quintet)
  deriving DecidableEq, Repr

end Sys2Proof
end

