-- ==== Sys2Proof/Syntax.lean ====
section
/-! DEFINITION. The instructions: one constructor per row of `opcode_table.json` (`30_encoding.md` rule R49). What plays
the part of an instruction is a transaction; a lane is an operand exactly when it is live (rule R46), so the dead lanes
of a transaction word, its ignored bits (rule R51), are no operand of any constructor. -/

namespace Sys2Proof

/-- The operation map of rule R49. -/
inductive Instr where
  /-- `Q1 b0`: encode a 1-byte quantum (rule R89). -/
  | q1 (b0 : Byte)
  /-- `Q2 b0, b1`: encode a 2-byte quantum (rule R90). -/
  | q2 (b0 b1 : Byte)
  /-- `Q3 b0, b1, b2`: encode a 3-byte quantum (rule R91). -/
  | q3 (b0 b1 b2 : Byte)
  /-- `Q4 b0, b1, b2, b3`: encode a 4-byte quantum (rule R92). -/
  | q4 (b0 b1 b2 b3 : Byte)
  /-- `Q5 b0, b1, b2, b3, b4`: encode a full quantum (rule R93). -/
  | q5 (b0 b1 b2 b3 b4 : Byte)
  /-- `ROMRD a`: read the character ROM at its own read port (rule R68); performed eight times inside every `Qn`,
  never issued by the host (rule R49). -/
  | romrd (a : Quintet)
  deriving DecidableEq, Repr

end Sys2Proof
end

