-- ==== Sys2Proof/WellFormed.lean ====
section
/-! DEFINITION. What is well formed: an instruction, a transaction word, a program. -/

namespace Sys2Proof

/-- An instruction's operands are values its encoding admits. Every byte value is legal in every live lane
(`30_encoding.md` rule R53) and every 5-bit address is implemented (rule R48), and the operand types hold exactly
those values, so no instruction is ill formed. -/
def Instr.wellFormed : Instr → Bool
  | .q1 _ => true
  | .q2 _ _ => true
  | .q3 _ _ _ => true
  | .q4 _ _ _ _ => true
  | .q5 _ _ _ _ _ => true
  | .romrd _ => true

/-- The operations a host can issue: "`Q1` to `Q5` and nothing else" (`60_exceptions.md` rule R102). -/
def Instr.issuable : Instr → Bool
  | .q1 _ => true
  | .q2 _ _ => true
  | .q3 _ _ _ => true
  | .q4 _ _ _ _ => true
  | .q5 _ _ _ _ _ => true
  | .romrd _ => false

/-- The full quantum, `n = 5` (`00_scope.md` rule R10). -/
def Instr.isFull : Instr → Bool
  | .q1 _ => false
  | .q2 _ _ => false
  | .q3 _ _ _ => false
  | .q4 _ _ _ _ => false
  | .q5 _ _ _ _ _ => true
  | .romrd _ => false

/-- A length is legal when it is 1 to 5; 0, 6 and 7 are reserved (rules R49, R52). -/
def legalLen (len : LenBits) : Bool :=
  decide (1 ≤ len.toNat) && decide (len.toNat ≤ 5)

/-- "The legal words are exactly those with `len` in 1 to 5" (rule R53). -/
def legalWord (tw : TxWord) : Bool :=
  legalLen (tw.extractLsb' 40 3)

/-- "The canonical word has all ignored bits 0" (rule R51): its low `40 - 8n` bits, with `n` its length. -/
def canonicalWord (tw : TxWord) : Bool :=
  legalWord tw && decide (tw.toNat % 2 ^ (40 - 8 * (tw.extractLsb' 40 3).toNat) = 0)

/-- The host's program contract (`70_reset_and_hazards.md` rule R110, items 1 and 3): transactions only, and no partial
quantum but the last. -/
def wellFormedProgram : List Instr → Bool
  | [] => true
  | [i] => i.issuable
  | i :: j :: rest => i.isFull && wellFormedProgram (j :: rest)

end Sys2Proof
end

