-- ==== Sys2Proof/Decode.lean ====
section
/-! DEFINITION. The bit fields of a transaction word, the decoder, the encoder, and the host's numbering of a word's bits
(`30_encoding.md` rules R45 to R54). -/

namespace Sys2Proof

/-- The number of bytes of a quantum. -/
def QLen.toNat : QLen → Nat
  | .one => 1
  | .two => 2
  | .three => 3
  | .four => 4
  | .five => 5

/-- The `len` field that selects the operation (rule R49). -/
def QLen.toBits : QLen → LenBits
  | .one => 0b001#3
  | .two => 0b010#3
  | .three => 0b011#3
  | .four => 0b100#3
  | .five => 0b101#3

/-- The quantum length a `len` field stands for; none for the reserved values (rules R49, R52). -/
def lenOfBits (len : LenBits) : Option QLen :=
  match len.toNat with
  | 1 => some .one
  | 2 => some .two
  | 3 => some .three
  | 4 => some .four
  | 5 => some .five
  | _ => none

/-- The `len` field, `TW[42:40]` (rule R46). -/
def wordLen (tw : TxWord) : LenBits := tw.extractLsb' 40 3

/-- The five lanes, `TW[39:0] = in_data` (rule R46). -/
def wordData (tw : TxWord) : Data := tw.extractLsb' 0 40

/-- The word on the ports, `TW = {in_len, in_data}` (rule R46). -/
def mkWord (len : LenBits) (data : Data) : TxWord := len ++ data

/-- `byte[k] = in_data[39-8k : 32-8k]`: lane `k`, lane 0 the most significant (`20_memory.md` rule R25). -/
def lane (data : Data) (k : Fin 5) : Byte := data.extractLsb' (32 - 8 * k.val) 8

/-- Five bytes laid on the lanes, lane 0 first (rule R25). -/
def packLanes (b0 b1 b2 b3 b4 : Byte) : Data := b0 ++ b1 ++ b2 ++ b3 ++ b4

/-- Why a word has no instruction. -/
inductive DecodeError where
  /-- `len` is 0, 6 or 7 (rule R52). -/
  | reservedLen (len : LenBits)
  deriving DecidableEq, Repr

/-- The operation of rule R49 on the live lanes of `data`; the dead lanes are ignored bits (rule R51). -/
def quantumInstr (n : QLen) (data : Data) : Instr :=
  match n with
  | .one => .q1 (lane data 0)
  | .two => .q2 (lane data 0) (lane data 1)
  | .three => .q3 (lane data 0) (lane data 1) (lane data 2)
  | .four => .q4 (lane data 0) (lane data 1) (lane data 2) (lane data 3)
  | .five => .q5 (lane data 0) (lane data 1) (lane data 2) (lane data 3) (lane data 4)

/-- The transaction a word stands for: the `len` field alone selects it (rule R49). -/
def decodeWord (tw : TxWord) : Except DecodeError Instr :=
  match lenOfBits (wordLen tw) with
  | some n => .ok (quantumInstr n (wordData tw))
  | none => .error (.reservedLen (wordLen tw))

/-- The decoder: format `T` by its length field, format `A` whatever the address, since all 32 are implemented
(rule R48). -/
def decode : Encoded → Except DecodeError Instr
  | .transaction tw => decodeWord tw
  | .romAddress a => .ok (.romrd a)

/-- The canonical encoding of an instruction: the field table of rule R46 and the rows of rule R49, absent lanes 0
(rules R51, R55; DEDUCED, safe: log entry 12). -/
def encode : Instr → Encoded
  | .q1 b0 => .transaction (mkWord 0b001#3 (packLanes b0 0#8 0#8 0#8 0#8))
  | .q2 b0 b1 => .transaction (mkWord 0b010#3 (packLanes b0 b1 0#8 0#8 0#8))
  | .q3 b0 b1 b2 => .transaction (mkWord 0b011#3 (packLanes b0 b1 b2 0#8 0#8))
  | .q4 b0 b1 b2 b3 => .transaction (mkWord 0b100#3 (packLanes b0 b1 b2 b3 0#8))
  | .q5 b0 b1 b2 b3 b4 => .transaction (mkWord 0b101#3 (packLanes b0 b1 b2 b3 b4))
  | .romrd a => .romAddress a

/-- The bits of a table row as the decoder takes them. The two formats have one width each (rules R45, R54), so the
width tells them apart: format `A` fits one byte, format `T` does not. A number too wide for its format is no word
of the block. DESIGN CHOICE, safe: log entry 6. -/
def tableEncoded (nbits w : Nat) : Option Encoded :=
  if nbits ≤ 8 then
    if w < 2 ^ 5 then some (.romAddress (BitVec.ofNat 5 w)) else none
  else
    if w < 2 ^ 43 then some (.transaction (BitVec.ofNat 43 w)) else none

/-- What the decoder reads from a word whose bits are numbered as `opcode_table.json` numbers them. -/
def decodeTableWord (nbits w : Nat) : Option Instr :=
  match tableEncoded nbits w with
  | some e =>
    match decode e with
    | .ok i => some i
    | .error _ => none
  | none => none

end Sys2Proof
end

