-- ==== Sys2Proof/Machine/Flags.lean ====
section
/-! DEFINITION. The block has no flag, condition code or predicate (`10_state.md` rule R14), so no flag is computed
anywhere. What stands here are its only condition wires, the data-enable bits that steer the pad select: the second half
of the quantum splitter (`40_splitter.md` rules R63, R64). -/

namespace Sys2Proof.Machine

/-- `d = (8*n + 4) div 5`: how many fields hold at least one input bit (rule R63). -/
def dataCount (n : QLen) : Nat := (8 * n.toNat + 4) / 5

/-- `data_en[i] = (i < d)`: field `i` is data-bearing (rule R64). -/
def dataEn (n : QLen) (i : Fin 8) : Bool := decide (i.val < dataCount n)

end Sys2Proof.Machine
end

