-- ==== Sys2Proof/Machine/Operands.lean ====
section
/-! DEFINITION. Operand assembly (`30_encoding.md` rule R50): the first half of the quantum splitter, from the raw lanes
to the 40-bit quantum string, and its cut into quintets (`40_splitter.md` rules R57 to R62). -/

namespace Sys2Proof.Machine

/-- `lane_en[k] = (k < n)`: lane `k` is live (rule R58). -/
def laneEn (n : QLen) (k : Fin 5) : Bool := decide (k.val < n.toNat)

/-- `mbyte[k] = lane_en[k] ? byte[k] : 0x00`: a dead lane contributes zero bits (rule R59). -/
def mbyte (n : QLen) (data : Data) (k : Fin 5) : Byte :=
  if laneEn n k then lane data k else 0x00#8

/-- `w = {mbyte[0], mbyte[1], mbyte[2], mbyte[3], mbyte[4]}` (rule R60; `20_memory.md` rule R24). -/
def quantumString (n : QLen) (data : Data) : Data :=
  mbyte n data 0 ++ mbyte n data 1 ++ mbyte n data 2 ++ mbyte n data 3 ++ mbyte n data 4

/-- `q[i] = w[39-5i : 35-5i]`: field `i`, most significant first (rule R61; `20_memory.md` rule R26). -/
def quintet (w : Data) (i : Fin 8) : Quintet := w.extractLsb' (35 - 5 * i.val) 5

end Sys2Proof.Machine
end

