-- ==== Sys2Proof/Config.lean ====
section
/-! DEFINITION. The values the spec leaves open. Every parameter of `00_scope.md` rule R5 is fixed by the spec (the widths
stand in `Word.lean`; `LATENCY = 0` and `LANES = 1` are the shape of one step), so this file holds only free values:
opaque constants, of which nothing can be proved but that they are some value. -/

namespace Sys2Proof.Config

/-- What `out_sym` carries while `out_valid = 0`: "any value" (rule R19; `93_implementation_defined.md` I7). The
argument is the state's count of draws, so that every idle evaluation has a value of its own. DESIGN CHOICE, safe: log entry 3. -/
opaque freeOutSym : Nat → Beat

/-- What the host leaves on `in_len` when it has nothing to present: it may "drive anything on the other inputs"
(`60_exceptions.md` rule R105). DESIGN CHOICE, safe: log entry 5. -/
opaque freeInLen : Nat → LenBits

/-- What the host leaves on `in_data` when it has nothing to present (rule R105). DESIGN CHOICE, safe: log entry 5. -/
opaque freeInData : Nat → Data

end Sys2Proof.Config
end

