-- ==== Sys2Proof/Machine/State.lean ====
section
/-! DEFINITION. The state of a model of the block. The block itself holds none (`10_state.md` rule R11): every field is
what a model observes around it, the two host-side sequences of rule R22, the five ports of rule R18 as the latest
evaluation left them, the read port of the character ROM (rules R49, R68), and the model's own count of free draws.
DEDUCED, safe: log entry 1. There is no memory in it, since nothing can be written (DEDUCED, safe: log entry 9). -/

namespace Sys2Proof.Machine

/-- The three input ports of rule R18 in one evaluation. `inValid = false` presents nothing; the other two are then
ignored. -/
structure InPorts where
  inValid : Bool
  inLen : LenBits
  inData : Data
  deriving DecidableEq, Repr

/-- The two output ports of rule R18. -/
structure OutPorts where
  outValid : Bool
  outSym : Beat
  deriving DecidableEq, Repr

/-- The observation state. -/
structure State where
  /-- `IN` with the host's pauses: what the source role has still to drive on the input ports, one entry an
  evaluation, in order (rules R22, R105). The pauses are a DESIGN CHOICE, safe: log entry 8. -/
  inp : List InPorts
  /-- `OUT`: the bytes the sink has received (rule R22). -/
  out : List Byte
  /-- The input ports in the latest evaluation (rule R18). -/
  inPorts : InPorts
  /-- The output ports in the latest evaluation (rules R18, R19). -/
  outPorts : OutPorts
  /-- An address on the character ROM's own read port, not yet read (format `A`, rules R48, R49); none, always, in a
  run a host drives. DESIGN CHOICE, safe: log entry 7. -/
  romAddr : Option Quintet
  /-- `rom_q` of the latest stand-alone ROM read (rule R68); none before the first, when the wire has no value
  (rule R23). That the answer stays until the next read is a DESIGN CHOICE, unsafe: log entry 7. -/
  romQ : Option Byte
  /-- The model's own: how many times a free value has been drawn. DESIGN CHOICE, safe: log entry 3. -/
  draws : Nat
  deriving DecidableEq, Repr

/-- The faults of the machine: none. "No transaction, legal or reserved, with any operand values, makes the block trap,
set a fault bit or report anything" (`60_exceptions.md` rule R97). Nothing raises one. DEDUCED, safe: log entry 14. -/
inductive Fault where
  deriving DecidableEq, Repr

/-- Why a step can have no meaning. -/
inductive Refusal where
  /-- An instruction the model has no meaning for. Raised by an arm of `exec`; every arm has its meaning, so nothing
  raises it. Safe. -/
  | notModelled (mnemonic : String)
  /-- A transaction with a reserved length, 0, 6 or 7 (`30_encoding.md` rule R52: "A model must `refuse`"). Raised by
  the fetch of `step`, before any instruction. Safe: it errs toward unprovable (`92_eei_decisions.md` D7; log entry 2). -/
  | reservedLen (len : LenBits)
  deriving DecidableEq, Repr

/-- The machine before any evaluation (rules R22, R23, R106): `IN` and `OUT` are empty, nothing is presented and
`out_valid = 0`. The other three ports may carry anything then, so each is a free value (draw 0). DESIGN CHOICE, safe: log entry 4. -/
def State.reset : State where
  inp := []
  out := []
  inPorts := { inValid := false, inLen := Config.freeInLen 0, inData := Config.freeInData 0 }
  outPorts := { outValid := false, outSym := Config.freeOutSym 0 }
  romAddr := none
  romQ := none
  draws := 1

end Sys2Proof.Machine
end

