-- ==== Sys2Proof/Machine/Ops.lean ====
section
/-! DEFINITION. The shared operations: the character ROM and pad select (`41_char_rom.md`), the pack and the beat
(`42_concatenator.md` rule R74, `43_quantum_ops.md` rule R88), and the moves of the state they are used in. There is no
operation that takes an exception and none that returns from one: the block has no trap mechanism
(`60_exceptions.md` rules R97, R100, R101). The only memory is the ROM, which nothing writes (`20_memory.md` rule R37). -/

namespace Sys2Proof.Machine

/-- `ROM[a]`: `0x41 + a` up to address 25, `0x18 + a` from 26 (rules R68, R69). Total: every address is implemented
(rule R70). The codes are US-ASCII, which the spec itself takes from general knowledge (PRESUMED, unsafe: log entry 11). -/
def romRead (a : Quintet) : Byte :=
  if a.toNat ≤ 25 then 0x41#8 + a.setWidth 8 else 0x18#8 + a.setWidth 8

/-- `PAD`, the code of `=`; a constant outside the ROM (rule R71). PRESUMED, unsafe: log entry 11. -/
def padCode : Byte := 0x3D#8

/-- `sym = data_en ? rom_q : PAD` (rule R72). -/
def symSel (en : Bool) (romQ : Byte) : Byte := if en then romQ else padCode

/-- The symbol of field `i` of a quantum: split, ROM read, pad select (rules R57, R68, R72). -/
def symbol (n : QLen) (data : Data) (i : Fin 8) : Byte :=
  symSel (dataEn n i) (romRead (quintet (quantumString n data) i))

/-- `CAT8`: `{sym[0], ..., sym[7]}` (rule R74). -/
def cat8 (sym : Fin 8 → Byte) : Beat :=
  sym 0 ++ sym 1 ++ sym 2 ++ sym 3 ++ sym 4 ++ sym 5 ++ sym 6 ++ sym 7

/-- `beat(n, lanes)`, the function every `Qn` computes (rule R88). -/
def beat (n : QLen) (data : Data) : Beat := cat8 (symbol n data)

/-- `out_sym[63-8i : 56-8i]`: symbol `i` of a beat (rule R47). -/
def beatByte (b : Beat) (i : Fin 8) : Byte := b.extractLsb' (56 - 8 * i.val) 8

/-- A beat laid out as a byte sequence, `sym[0]` first (`20_memory.md` rule R27). -/
def serialise (b : Beat) : List Byte :=
  [beatByte b 0, beatByte b 1, beatByte b 2, beatByte b 3, beatByte b 4, beatByte b 5, beatByte b 6, beatByte b 7]

/-- The source role drives `p` on the input ports and has `rest` still to drive. -/
def present (p : InPorts) (rest : List InPorts) (s : State) : State :=
  { s with inPorts := p, inp := rest }

/-- A beat leaves: `out_valid = 1`, `out_sym` is the beat, and the sink appends its eight bytes (rules R75, R88).
That it always does is the spec's assumption about the host (DEDUCED, unsafe: log entry 10). -/
def deliver (b : Beat) (s : State) : State :=
  { s with outPorts := { outValid := true, outSym := b }, out := s.out ++ serialise b }

/-- An evaluation with `in_valid = 0`: `out_valid = 0`, `out_sym` is any value, the sink takes nothing (rule R19). -/
def noBeat (s : State) : State :=
  { s with outPorts := { outValid := false, outSym := Config.freeOutSym s.draws }, draws := s.draws + 1 }

/-- The input ports while the host has nothing to present: `in_valid = 0` and anything on the others (rule R105). -/
def undriven (s : State) : InPorts :=
  { inValid := false, inLen := Config.freeInLen s.draws, inData := Config.freeInData s.draws }

/-- The address leaves the ROM's read port. -/
def takeRomAddr (s : State) : State := { s with romAddr := none }

/-- The ROM's read port answers `q` (rule R68). -/
def answerRom (q : Byte) (s : State) : State := { s with romQ := some q }

end Sys2Proof.Machine
end

