-- ==== Sys2Proof/Machine/CharRom.lean ====
section
/-! DEFINITION. The character ROM's own read port (`41_char_rom.md` rule R68). -/

namespace Sys2Proof.Machine

/-- `ROMRD a`: the port answers `ROM[a]`; "the read has no side effect, no latency, and cannot fail" (rule R68). -/
def execRomrd (a : Quintet) (s : State) : Host.Outcome State Fault Refusal :=
  .next (answerRom (romRead a) s)

end Sys2Proof.Machine
end

