-- ==== Sys2Proof/Machine/Quantum.lean ====
section
/-! DEFINITION. The five transactions (`43_quantum_ops.md` rules R88 to R93). Each is the general beat of rule R88 at its
length. A dead lane of the word is no operand (`30_encoding.md` rule R46); the lanes handed to `beat` carry 0 there, and
`beat` masks them whatever they carry (`40_splitter.md` rule R59). -/

namespace Sys2Proof.Machine

/-- `Q1 b0` (rule R89). -/
def execQ1 (b0 : Byte) (s : State) : Host.Outcome State Fault Refusal :=
  .next (deliver (beat .one (packLanes b0 0#8 0#8 0#8 0#8)) s)

/-- `Q2 b0, b1` (rule R90). -/
def execQ2 (b0 b1 : Byte) (s : State) : Host.Outcome State Fault Refusal :=
  .next (deliver (beat .two (packLanes b0 b1 0#8 0#8 0#8)) s)

/-- `Q3 b0, b1, b2` (rule R91). -/
def execQ3 (b0 b1 b2 : Byte) (s : State) : Host.Outcome State Fault Refusal :=
  .next (deliver (beat .three (packLanes b0 b1 b2 0#8 0#8)) s)

/-- `Q4 b0, b1, b2, b3` (rule R92). -/
def execQ4 (b0 b1 b2 b3 : Byte) (s : State) : Host.Outcome State Fault Refusal :=
  .next (deliver (beat .four (packLanes b0 b1 b2 b3 0#8)) s)

/-- `Q5 b0, b1, b2, b3, b4` (rule R93). -/
def execQ5 (b0 b1 b2 b3 b4 : Byte) (s : State) : Host.Outcome State Fault Refusal :=
  .next (deliver (beat .five (packLanes b0 b1 b2 b3 b4)) s)

end Sys2Proof.Machine
end

