-- ==== Sys2Proof/Machine/Dispatch.lean ====
section
/-! DEFINITION. One arm per instruction: the operation map of `30_encoding.md` rule R49. -/

namespace Sys2Proof.Machine

def exec (i : Instr) (s : State) : Host.Outcome State Fault Refusal :=
  match i with
  | .q1 b0 => Sys2Proof.Machine.execQ1 b0 s
  | .q2 b0 b1 => Sys2Proof.Machine.execQ2 b0 b1 s
  | .q3 b0 b1 b2 => Sys2Proof.Machine.execQ3 b0 b1 b2 s
  | .q4 b0 b1 b2 b3 => Sys2Proof.Machine.execQ4 b0 b1 b2 b3 s
  | .q5 b0 b1 b2 b3 b4 => Sys2Proof.Machine.execQ5 b0 b1 b2 b3 b4 s
  | .romrd a => Sys2Proof.Machine.execRomrd a s

end Sys2Proof.Machine
end

