-- ==== Sys2Proof/Machine/Fetch.lean ====
section
/-! DEFINITION. What one evaluation has before it. The block fetches nothing (`10_state.md` rule R13): the host's source
role presents, and this file says what is presented. -/

namespace Sys2Proof.Machine

/-- What an evaluation turns out to be. -/
inductive Fetched where
  /-- An instruction to run in the state given. -/
  | run (i : Instr) (s : State)
  /-- Nothing was presented; the state after it. -/
  | idle (s : State)
  /-- A reserved word was presented. -/
  | refuse (r : Refusal)
  deriving DecidableEq, Repr

/-- The refusal of a word that has no instruction (`30_encoding.md` rule R52). -/
def refusalOf : DecodeError → Refusal
  | .reservedLen len => .reservedLen len

/-- The transaction word on the ports (rule R46). -/
def portWord (p : InPorts) : TxWord := mkWord p.inLen p.inData

/-- The block sees `p` on its input ports, in a state where they are driven (`10_state.md` rule R19): with
`in_valid = 0` the other inputs are ignored. -/
def evaluate (p : InPorts) (s : State) : Fetched :=
  if p.inValid then
    match decode (.transaction (portWord p)) with
    | .ok i => .run i s
    | .error e => .refuse (refusalOf e)
  else .idle (noBeat s)

/-- An address on the ROM's read port is read first (DESIGN CHOICE, safe: log entry 7); else the source role drives its next
entry, or nothing when it has none left (DESIGN CHOICE, safe: log entry 8). -/
def fetch (s : State) : Fetched :=
  match s.romAddr with
  | some a => .run (.romrd a) (takeRomAddr s)
  | none =>
    match s.inp with
    | [] => evaluate (undriven s) (present (undriven s) [] s)
    | p :: rest => evaluate p (present p rest s)

/-- The input ports that carry a transaction word (rule R46). -/
def portsOfWord (tw : TxWord) : InPorts :=
  { inValid := true, inLen := wordLen tw, inData := wordData tw }

/-- A word placed where the next evaluation takes it: a transaction word in front of what the source role has still to
drive, an address on the ROM's read port. DESIGN CHOICE, safe: log entry 6. -/
def place (e : Encoded) (s : State) : State :=
  match e with
  | .transaction tw => { s with romAddr := none, inp := portsOfWord tw :: s.inp }
  | .romAddress a => { s with romAddr := some a }

/-- `place` for a word numbered as `opcode_table.json` numbers it; a number that is no word of the block places
nothing. -/
def placeTableWord (nbits w : Nat) (s : State) : State :=
  match tableEncoded nbits w with
  | some e => place e s
  | none => s

end Sys2Proof.Machine
end

