-- ==== Sys2Proof/Machine/Step.lean ====
section
/-! DEFINITION. One step: one evaluation of the block, which is one transaction (`00_scope.md` rule R6), one evaluation
with nothing presented (`10_state.md` rule R19), or one read at the ROM's own port. One
transaction at a time and no time in it: DEDUCED, safe: log entry 13. -/

namespace Sys2Proof.Machine

/-- One evaluation (`42_concatenator.md` rule R75). -/
def step (s : State) : Host.Outcome State Fault Refusal :=
  match fetch s with
  | .run i t => exec i t
  | .idle t => .next t
  | .refuse r => .refused r

/-- `s` with one word placed where `step` takes its next. -/
def State.withFetchWord (s : State) (nbits w : Nat) : State := placeTableWord nbits w s

end Sys2Proof.Machine
end

