-- ==== Sys2Proof/Machine/Run.lean ====
section
/-! DEFINITION. A run and the refusal it records (`10_state.md` rule R22, `42_concatenator.md` rules R75, R79). -/

namespace Sys2Proof.Machine

/-- A run at some moment: the state, and the refusal recorded, if any (rule R22; DESIGN CHOICE, safe: log entry 2). -/
structure Run where
  state : State
  refusal : Option Refusal
  deriving DecidableEq, Repr

/-- One step of a run: a refusal is recorded, gives no beat and appends nothing, and "once recorded, is kept for the rest
of the run" (rules R22, R52). -/
def Run.advance (r : Run) : Run :=
  match r.refusal with
  | some _ => r
  | none =>
    match step r.state with
    | .next s => { state := s, refusal := none }
    | .refused x => { r with refusal := some x }
    | .fault f => nomatch f

/-- `k` steps of a run. -/
def Run.after : Nat → Run → Run
  | 0, r => r
  | k + 1, r => Run.after k r.advance

/-- `IN`: the transactions the source has still to present (rule R22). Entries with `in_valid = 0` are none. -/
def State.pending (s : State) : List InPorts := s.inp.filter (fun p => p.inValid)

/-- "A run is over when `IN = []`", and "a run that was refused is never over" (rule R79). -/
def Run.over (r : Run) : Bool := r.refusal.isNone && r.state.pending.isEmpty

end Sys2Proof.Machine
end

