-- ==== Sys2Proof/Machine/Sequence.lean ====
section
/-! DEFINITION. The whole-sequence contract: what a host presents for a byte sequence, and `encode`
(`42_concatenator.md` rules R77, R78; `30_encoding.md` rule R56). -/

namespace Sys2Proof.Machine

/-- `T = ceil(L / 5)`, the number of transactions of a sequence of `L` bytes (rule R77). -/
def quantumCount (len : Nat) : Nat := (len + 4) / 5

/-- Transaction `j` of `partition(B)`: `n_j = min(5, L - 5j)`, lane `k` is `B[5j + k]`; dead lanes 0 (rule R77). -/
def quantumAt (bytes : List Byte) (j : Nat) : InPorts where
  inValid := true
  inLen := BitVec.ofNat 3 (min 5 (bytes.length - 5 * j))
  inData := packLanes (bytes.getD (5 * j) 0#8) (bytes.getD (5 * j + 1) 0#8) (bytes.getD (5 * j + 2) 0#8)
    (bytes.getD (5 * j + 3) 0#8) (bytes.getD (5 * j + 4) 0#8)

/-- `partition(B)`, with canonical words (rule R77). -/
def partition (bytes : List Byte) : List InPorts :=
  (List.range (quantumCount bytes.length)).map (quantumAt bytes)

/-- The two entries present the same quantum: one length, the same live lanes; dead lanes may carry anything
(`30_encoding.md` rule R51). -/
def SameQuantum (p q : InPorts) : Prop :=
  p.inValid = q.inValid ∧ p.inLen = q.inLen ∧ ∀ k : Fin 5, k.val < p.inLen.toNat → lane p.inData k = lane q.inData k

/-- What a host that keeps the contract may drive for `bytes`: the transactions of the partition, in order, anything on
their dead lanes, and pauses anywhere (rules R77, R105). -/
def Presents (bytes : List Byte) (l : List InPorts) : Prop :=
  List.Forall₂ SameQuantum (partition bytes) (l.filter (fun p => p.inValid))

/-- The start of a run over `l`: `OUT = []`, `IN` the list to be presented, no refusal recorded (rule R22). -/
def launch (l : List InPorts) : Run where
  state := { State.reset with inp := l }
  refusal := none

/-- `encode(B)`: `OUT` at the end of the run that starts from `IN = partition(B)`, `OUT = []` (rule R78). -/
def encodeBytes (bytes : List Byte) : List Byte :=
  (Run.after (quantumCount bytes.length) (launch (partition bytes))).state.out

/-- The bytes of the beat of one transaction; none where the length is reserved, when there is no beat (rules R74,
R52). -/
def beatBytes (p : InPorts) : List Byte :=
  match lenOfBits p.inLen with
  | some n => serialise (beat n p.inData)
  | none => []

/-- The pseudo-operation `ENCODE v0, ..., v(L-1)` and its expansion (rule R56). -/
def expandEncode : List Byte → List Instr
  | [] => []
  | [b0] => [.q1 b0]
  | [b0, b1] => [.q2 b0 b1]
  | [b0, b1, b2] => [.q3 b0 b1 b2]
  | [b0, b1, b2, b3] => [.q4 b0 b1 b2 b3]
  | b0 :: b1 :: b2 :: b3 :: b4 :: rest => .q5 b0 b1 b2 b3 b4 :: expandEncode rest

end Sys2Proof.Machine
end

