-- ==== Sys2Proof/Safety.lean ====
section
/-! DEFINITION. The terms claims are stated in: the symbol alphabet, the invariant of every reachable state, streams a
host may present, and a bit-by-bit reference of the encoding that names no quantum. -/

namespace Sys2Proof.Machine

/-- One of the 33 codes a symbol can be: `A` to `Z`, `2` to `7`, or `=` (`41_char_rom.md` rule R73). -/
def symbolCode (b : Byte) : Bool :=
  (decide (0x41 ≤ b.toNat) && decide (b.toNat ≤ 0x5A)) ||
    (decide (0x32 ≤ b.toNat) && decide (b.toNat ≤ 0x37)) || b == padCode

/-- What holds of the observation after every evaluation: the port relation of `10_state.md` rule R19, and what the sink
can have received. -/
structure State.Inv (s : State) : Prop where
  /-- `out_valid = in_valid`. -/
  valid_iff : s.outPorts.outValid = s.inPorts.inValid
  /-- With `in_valid = 1` the length is legal and `out_sym = beat(in_len, in_data)`. -/
  beat_out : s.inPorts.inValid = true →
    ∃ n, lenOfBits s.inPorts.inLen = some n ∧ s.outPorts.outSym = beat n s.inPorts.inData
  /-- The latest beat has been taken: its bytes end `OUT`. -/
  taken : s.outPorts.outValid = true → serialise s.outPorts.outSym <:+ s.out
  /-- `OUT` is whole beats. -/
  whole_beats : s.out.length % 8 = 0
  /-- `OUT` is a string over the alphabet (rules R73, R87). -/
  alphabet : ∀ b ∈ s.out, symbolCode b = true
  /-- A stand-alone ROM read answers an alphabet symbol, never `=`. -/
  rom_answer : ∀ q, s.romQ = some q → ∃ a, q = romRead a

/-- Every transaction of the stream has a legal length (`70_reset_and_hazards.md` rule R110, item 3). -/
def legalStream (l : List InPorts) : Bool :=
  l.all (fun p => !p.inValid || legalLen p.inLen)

/-- The bytes the live lanes of a transaction carry, lane 0 first (`20_memory.md` rule R25). -/
def liveBytes (p : InPorts) : List Byte :=
  [lane p.inData 0, lane p.inData 1, lane p.inData 2, lane p.inData 3, lane p.inData 4].take p.inLen.toNat

/-- The bits of a byte, bit 7 first (`20_memory.md` rule R24). -/
def byteBits (b : Byte) : List Bool :=
  [b.getLsbD 7, b.getLsbD 6, b.getLsbD 5, b.getLsbD 4, b.getLsbD 3, b.getLsbD 2, b.getLsbD 1, b.getLsbD 0]

/-- The number whose bits are these, most significant first. -/
def bitsValue : List Bool → Nat
  | [] => 0
  | b :: bs => b.toNat * 2 ^ bs.length + bitsValue bs

/-- A bit string cut into fields of five bits, the last padded on the right with zeros; each field's value. -/
def bitFields : List Bool → List Nat
  | [] => []
  | [a] => [bitsValue [a, false, false, false, false]]
  | [a, b] => [bitsValue [a, b, false, false, false]]
  | [a, b, c] => [bitsValue [a, b, c, false, false]]
  | [a, b, c, d] => [bitsValue [a, b, c, d, false]]
  | a :: b :: c :: d :: e :: rest => bitsValue [a, b, c, d, e] :: bitFields rest

/-- The alphabet as the source writes it: values 0 to 25 are `A` to `Z`, 26 to 31 are `2` to `7` (rule R69). -/
def alphabetByte (v : Nat) : Byte :=
  BitVec.ofNat 8 ("ABCDEFGHIJKLMNOPQRSTUVWXYZ234567".toList.getD v '=').toNat

/-- The encoding with no quantum in it: the input as one bit string, cut into fields of five, each mapped to its
character, and `=` up to a whole number of groups of eight. -/
def referenceEncode (bytes : List Byte) : List Byte :=
  let chars := (bitFields (bytes.flatMap byteBits)).map alphabetByte
  chars ++ List.replicate (8 * quantumCount bytes.length - chars.length) padCode

end Sys2Proof.Machine
end

