-- ==== Sys2Proof/Certificates/Slice0/Obligations.lean ====
section
/-! DEFINITION. The statements for the provers. Each docstring names the rule it formalises; `n` ranges over the five
legal quantum lengths, `s` over every state. -/

open Sys2Proof Sys2Proof.Machine

/-! ## Encoding -/

/-- Decoding the canonical encoding of an instruction gives it back, with every operand at every value
(`30_encoding.md`, formats and operation map, rules R46, R48, R49, R55). -/
def Obligations.DecodeOfEncode : Prop :=
  ∀ i : Instr, i.wellFormed = true → decode (encode i) = .ok i

/-- Rule R51: words with one length and the same live lanes are the same operation with the same operands, whatever their
ignored bits; every legal word decodes, to the instruction of the canonical word with the same length and live lanes. -/
def Obligations.IgnoredBitsTakeNoPart : Prop :=
  (∀ tw tw' : TxWord, wordLen tw = wordLen tw' →
    (∀ k : Fin 5, k.val < (wordLen tw).toNat → lane (wordData tw) k = lane (wordData tw') k) →
    decode (.transaction tw) = decode (.transaction tw')) ∧
  (∀ tw : TxWord, legalWord tw = true →
    ∃ i c, decode (.transaction tw) = .ok i ∧ encode i = .transaction c ∧ canonicalWord c = true ∧
      wordLen c = wordLen tw ∧ decode (.transaction c) = .ok i ∧
      ∀ k : Fin 5, k.val < (wordLen tw).toNat → lane (wordData c) k = lane (wordData tw) k)

/-- Rule R49's table by its `match` and `mask`: the row of length `n` is chosen exactly by `TW & 0x70000000000 = n << 40`,
a word that matches no row is reserved, and no transaction word is a `ROMRD`. -/
def Obligations.TableRowsSelectOperation : Prop :=
  (∀ (tw : TxWord) (n : QLen),
    decode (.transaction tw) = .ok (quantumInstr n (wordData tw)) ↔
      tw &&& 0x70000000000#43 = BitVec.ofNat 43 (n.toNat * 2 ^ 40)) ∧
  (∀ tw : TxWord, (∀ n : QLen, tw &&& 0x70000000000#43 ≠ BitVec.ofNat 43 (n.toNat * 2 ^ 40)) →
    decode (.transaction tw) = .error (.reservedLen (wordLen tw))) ∧
  (∀ (tw : TxWord) (a : Quintet), decode (.transaction tw) ≠ .ok (.romrd a))

/-- A few words written out from rules R46, R49 and R51 decode to what they stand for (`95_test_vectors.md` V-Q1, V-Q16,
V-Q2, V-Q3, V-Q4, V-Q5, V-X1, V-X3, V-X4, V-R3). -/
def Obligations.WrittenOutWordsDecode : Prop :=
  decode (.transaction 0x16600000000#43) = .ok (.q1 0x66#8) ∧
  decode (.transaction 0x166FFFFFFFF#43) = .ok (.q1 0x66#8) ∧
  decode (.transaction 0x2666F000000#43) = .ok (.q2 0x66#8 0x6F#8) ∧
  decode (.transaction 0x3666F6F0000#43) = .ok (.q3 0x66#8 0x6F#8 0x6F#8) ∧
  decode (.transaction 0x4666F6F6200#43) = .ok (.q4 0x66#8 0x6F#8 0x6F#8 0x62#8) ∧
  decode (.transaction 0x5666F6F6261#43) = .ok (.q5 0x66#8 0x6F#8 0x6F#8 0x62#8 0x61#8) ∧
  decode (.transaction 0x00000000000#43) = .error (.reservedLen 0#3) ∧
  decode (.transaction 0x6666F6F6261#43) = .error (.reservedLen 6#3) ∧
  decode (.transaction 0x7FFFFFFFFFF#43) = .error (.reservedLen 7#3) ∧
  decode (.romAddress 26#5) = .ok (.romrd 26#5)

/-! ## A step -/

/-- A step runs the decoded instruction: a presented word that decodes to `i` is taken off `IN`, stands on the input ports,
and `exec i` gives the outcome. The second clause is the model's own choice (DESIGN CHOICE, log entry 7): an address on the
ROM's read port is taken off it and read by a step of its own, ahead of `IN`. -/
def Obligations.StepRunsDecodedInstruction : Prop :=
  (∀ (s : State) (p : InPorts) (rest : List InPorts) (i : Instr),
    s.romAddr = none → s.inp = p :: rest → p.inValid = true → decode (.transaction (mkWord p.inLen p.inData)) = .ok i →
    step s = exec i { s with inp := rest, inPorts := p }) ∧
  (∀ (s : State) (a : Quintet), s.romAddr = some a → step s = exec (.romrd a) { s with romAddr := none })

/-- A table word placed by `withFetchWord` is what the very next step runs, in the given state but for the ports that
carry it (the model's own interface, log entry 6). -/
def Obligations.PlacedWordRunsNext : Prop :=
  ∀ (s : State) (nbits w : Nat) (i : Instr), decodeTableWord nbits w = some i →
    ∃ t, step (s.withFetchWord nbits w) = exec i t ∧ t.inp = s.inp ∧ t.out = s.out ∧ t.outPorts = s.outPorts ∧
      t.romAddr = none ∧ t.romQ = s.romQ ∧ t.draws = s.draws ∧
      (i.issuable = true → t.inPorts.inValid = true ∧ decode (.transaction (portWord t.inPorts)) = .ok i) ∧
      (i.issuable = false → t.inPorts = s.inPorts)

/-- Rule R19: with `in_valid = 1` and a legal `in_len`, `out_valid = 1`, `out_sym = beat(in_len, in_data)` on the raw lanes,
and the sink takes that one beat; with `in_valid = 0`, whatever the other inputs, `out_valid = 0` and the sink takes
nothing; with `in_valid = 1` and `in_len` 0, 6 or 7 the model refuses. In each case exactly one entry is consumed. -/
def Obligations.PortRelation : Prop :=
  ∀ (s : State) (p : InPorts) (rest : List InPorts), s.romAddr = none → s.inp = p :: rest →
    (∀ n : QLen, p.inValid = true → p.inLen.toNat = n.toNat →
      ∃ t, step s = .next t ∧ t.inPorts = p ∧ t.outPorts = { outValid := true, outSym := beat n p.inData } ∧
        t.out = s.out ++ serialise (beat n p.inData) ∧ t.inp = rest) ∧
    (p.inValid = false →
      ∃ t, step s = .next t ∧ t.inPorts = p ∧ t.outPorts.outValid = false ∧ t.out = s.out ∧ t.inp = rest) ∧
    (p.inValid = true → (p.inLen = 0#3 ∨ p.inLen = 6#3 ∨ p.inLen = 7#3) → step s = .refused (.reservedLen p.inLen))

/-- Rule R105, row "present nothing", and rule R79: with nothing left to drive, a step leaves `out_valid = 0` and `OUT` as it
was, and so it stays for any number of steps. That the ROM port's latest answer stays too (`t.romQ = s.romQ`) is no rule of
the spec: it is the model's own choice (DESIGN CHOICE, unsafe, log entry 7). -/
def Obligations.NothingPresentedNothingAppended : Prop :=
  ∀ (s : State) (k : Nat), s.romAddr = none → s.pending = [] →
    ∃ t, Run.after k { state := s, refusal := none } = { state := t, refusal := none } ∧ t.out = s.out ∧
      t.pending = [] ∧ t.romQ = s.romQ ∧ (0 < k → t.outPorts.outValid = false ∧ t.inPorts.inValid = false)

/-- Rule R97 with rule R52, both directions: the only outcome of a step other than a next state is the refusal of a reserved
length that is presented (a legal transaction, an idle evaluation and a ROM read always complete), and a reserved length
that is presented is always refused. -/
def Obligations.RefusedExactlyOnReservedLength : Prop :=
  (∀ s : State, (∃ t, step s = .next t) ∨
    (s.romAddr = none ∧ ∃ p rest, s.inp = p :: rest ∧ p.inValid = true ∧ (p.inLen = 0#3 ∨ p.inLen = 6#3 ∨ p.inLen = 7#3) ∧
      step s = .refused (.reservedLen p.inLen))) ∧
  (∀ (s : State) (p : InPorts) (rest : List InPorts), s.romAddr = none → s.inp = p :: rest → p.inValid = true →
    (p.inLen = 0#3 ∨ p.inLen = 6#3 ∨ p.inLen = 7#3) → step s = .refused (.reservedLen p.inLen))

/-- Rule R75, `APPEND`: a step on a legal transaction takes it off `IN` and appends exactly its eight symbols to `OUT`; on a
reserved length it is refused; and no step, whatever it is, rewrites or removes a byte already in `OUT`. -/
def Obligations.AppendStep : Prop :=
  (∀ (s : State) (p : InPorts) (rest : List InPorts) (n : QLen),
    s.romAddr = none → s.inp = p :: rest → p.inValid = true → p.inLen.toNat = n.toNat →
    ∃ t, step s = .next t ∧ t.out = s.out ++ List.ofFn (symbol n p.inData) ∧ t.inp = rest ∧
      s.pending = p :: t.pending) ∧
  (∀ (s : State) (p : InPorts) (rest : List InPorts),
    s.romAddr = none → s.inp = p :: rest → p.inValid = true → (p.inLen = 0#3 ∨ p.inLen = 6#3 ∨ p.inLen = 7#3) →
    step s = .refused (.reservedLen p.inLen)) ∧
  (∀ s t : State, step s = .next t → ∃ added, t.out = s.out ++ added ∧ (added = [] ∨ added.length = 8))

/-- Rule R17: two transactions with the same `in_len` and the same live lanes give the same beat whatever came before and
whatever the dead lanes carry: the two states may differ in everything else. -/
def Obligations.BeatIndependentOfHistory : Prop :=
  ∀ (s s' : State) (p p' : InPorts) (rest rest' : List InPorts),
    s.romAddr = none → s'.romAddr = none → s.inp = p :: rest → s'.inp = p' :: rest' →
    p.inValid = true → legalLen p.inLen = true → SameQuantum p p' →
    ∃ t t' b, step s = .next t ∧ step s' = .next t' ∧ t.outPorts = { outValid := true, outSym := b } ∧
      t'.outPorts = { outValid := true, outSym := b } ∧ t.out = s.out ++ serialise b ∧ t'.out = s'.out ++ serialise b

/-! ## The splitter -/

/-- Rules R59 and R60 on numbers: dead lanes contribute 0 and live lanes their byte, the first byte is the most significant
of `w`, and the low `40 - 8n` bits of `w` are 0; its other bits are those of `in_data` (rule R25). -/
def Obligations.QuantumStringIsMaskedInput : Prop :=
  ∀ (n : QLen) (data : Data),
    (∀ k : Fin 5, (mbyte n data k).toNat = if k.val < n.toNat then data.toNat / 2 ^ (32 - 8 * k.val) % 256 else 0) ∧
    (quantumString n data).toNat =
      (mbyte n data 0).toNat * 2 ^ 32 + (mbyte n data 1).toNat * 2 ^ 24 + (mbyte n data 2).toNat * 2 ^ 16 +
        (mbyte n data 3).toNat * 2 ^ 8 + (mbyte n data 4).toNat ∧
    (quantumString n data).toNat = data.toNat / 2 ^ (40 - 8 * n.toNat) * 2 ^ (40 - 8 * n.toNat)

/-- Rule R61: field `i` is `(w div 2^(35-5i)) mod 32`, the eight fields regroup the 40 bits without loss, every value occurs in
every field of a `Q5`, and quintets beyond the available bits are zero. -/
def Obligations.QuintetsRegroupQuantumString : Prop :=
  (∀ (w : Data) (i : Fin 8), (quintet w i).toNat = w.toNat / 2 ^ (35 - 5 * i.val) % 32) ∧
  (∀ w : Data, w.toNat =
    (quintet w 0).toNat * 2 ^ 35 + (quintet w 1).toNat * 2 ^ 30 + (quintet w 2).toNat * 2 ^ 25 +
      (quintet w 3).toNat * 2 ^ 20 + (quintet w 4).toNat * 2 ^ 15 + (quintet w 5).toNat * 2 ^ 10 +
      (quintet w 6).toNat * 2 ^ 5 + (quintet w 7).toNat) ∧
  (∀ (i : Fin 8) (v : Quintet), ∃ data, quintet (quantumString .five data) i = v) ∧
  (∀ (n : QLen) (data : Data) (i : Fin 8), 8 * n.toNat ≤ 5 * i.val → quintet (quantumString n data) i = 0#5)

/-- Rule R62: the bits of the masked bytes that make each quintet, and the same as arithmetic on byte values. -/
def Obligations.QuintetsFromMaskedBytes : Prop :=
  ∀ (n : QLen) (data : Data) (m0 m1 m2 m3 m4 : Byte),
    m0 = mbyte n data 0 → m1 = mbyte n data 1 → m2 = mbyte n data 2 → m3 = mbyte n data 3 → m4 = mbyte n data 4 →
    let q := quintet (quantumString n data)
    (q 0 = m0.extractLsb' 3 5 ∧ q 1 = m0.extractLsb' 0 3 ++ m1.extractLsb' 6 2 ∧ q 2 = m1.extractLsb' 1 5 ∧
      q 3 = m1.extractLsb' 0 1 ++ m2.extractLsb' 4 4 ∧ q 4 = m2.extractLsb' 0 4 ++ m3.extractLsb' 7 1 ∧
      q 5 = m3.extractLsb' 2 5 ∧ q 6 = m3.extractLsb' 0 2 ++ m4.extractLsb' 5 3 ∧ q 7 = m4.extractLsb' 0 5) ∧
    ((q 0).toNat = m0.toNat / 8 ∧ (q 1).toNat = m0.toNat % 8 * 4 + m1.toNat / 64 ∧
      (q 2).toNat = m1.toNat / 2 % 32 ∧ (q 3).toNat = m1.toNat % 2 * 16 + m2.toNat / 16 ∧
      (q 4).toNat = m2.toNat % 16 * 2 + m3.toNat / 128 ∧ (q 5).toNat = m3.toNat / 4 % 32 ∧
      (q 6).toNat = m3.toNat % 4 * 8 + m4.toNat / 32 ∧ (q 7).toNat = m4.toNat % 32)

/-- Rules R63 and R64: `d` by its table and by `ceil(8n / 5)`; field `i` is data-bearing exactly when `i < d`, that is when
its most significant bit lies in a live byte; the data-bearing fields are a prefix. -/
def Obligations.DataFieldCount : Prop :=
  (dataCount .one = 2 ∧ dataCount .two = 4 ∧ dataCount .three = 5 ∧ dataCount .four = 7 ∧ dataCount .five = 8) ∧
  (∀ n : QLen, 8 * n.toNat ≤ 5 * dataCount n ∧ 5 * dataCount n < 8 * n.toNat + 5) ∧
  (∀ (n : QLen) (i : Fin 8), (dataEn n i = true ↔ i.val < dataCount n) ∧ (dataEn n i = true ↔ 5 * i.val < 8 * n.toNat)) ∧
  (∀ (n : QLen) (i j : Fin 8), i ≤ j → dataEn n j = true → dataEn n i = true)

/-- Rule R65's table: the last data-bearing field holds its `8n - 5(d - 1)` real bits at the top and zeros below, the
earlier ones hold five real bits, and every pad field's quintet is 0. -/
def Obligations.LastDataFieldZeroFilled : Prop :=
  ∀ data : Data,
    quintet (quantumString .one data) 1 = (lane data 0).extractLsb' 0 3 ++ 0b00#2 ∧
    quintet (quantumString .two data) 3 = (lane data 1).extractLsb' 0 1 ++ 0b0000#4 ∧
    quintet (quantumString .three data) 4 = (lane data 2).extractLsb' 0 4 ++ 0b0#1 ∧
    quintet (quantumString .four data) 6 = (lane data 3).extractLsb' 0 2 ++ 0b000#3 ∧
    quintet (quantumString .five data) 7 = (lane data 4).extractLsb' 0 5 ∧
    (∀ (n : QLen) (i : Fin 8), i.val + 1 < dataCount n →
      quintet (quantumString n data) i = data.extractLsb' (35 - 5 * i.val) 5) ∧
    (∀ (n : QLen) (i : Fin 8), dataCount n ≤ i.val → quintet (quantumString n data) i = 0#5)

/-- The two identities of `40_splitter.md` section 5 (in rule R66): the quintets of a `Q5` determine its five bytes, and the
first `d` quintets of a shorter quantum determine its live bytes. -/
def Obligations.QuintetsDetermineLiveBytes : Prop :=
  (∀ data data' : Data,
    (∀ i, quintet (quantumString .five data) i = quintet (quantumString .five data') i) → data = data') ∧
  (∀ (n : QLen) (data data' : Data),
    (∀ i : Fin 8, i.val < dataCount n → quintet (quantumString n data) i = quintet (quantumString n data') i) →
    ∀ k : Fin 5, k.val < n.toNat → lane data k = lane data' k)

/-! ## The ROM, the pad select and the pack -/

/-- Rule R69 with rules R70 and R71: the formula over the address, the 32 characters in order, bit 7 clear, no two
addresses alike, no digit `0`, `1`, `8`, `9` and no lower-case letter; `=` is no entry. -/
def Obligations.RomContents : Prop :=
  (∀ a : Quintet, (a.toNat ≤ 25 → (romRead a).toNat = 0x41 + a.toNat) ∧
    (26 ≤ a.toNat → (romRead a).toNat = 0x18 + a.toNat)) ∧
  (∀ a : Quintet, some (romRead a).toNat = ("ABCDEFGHIJKLMNOPQRSTUVWXYZ234567".toList.map Char.toNat)[a.toNat]?) ∧
  (∀ a b : Quintet, romRead a = romRead b → a = b) ∧
  (∀ a : Quintet, romRead a ≠ 0x30#8 ∧ romRead a ≠ 0x31#8 ∧ romRead a ≠ 0x38#8 ∧ romRead a ≠ 0x39#8 ∧
    ¬(0x61 ≤ (romRead a).toNat ∧ (romRead a).toNat ≤ 0x7A) ∧ (romRead a).toNat < 128 ∧ romRead a ≠ 0x3D#8)

/-- Rule R72: the select is by field position. Field `i` of a beat is the ROM's symbol of its quintet when `i < d` and
`0x3D` otherwise; a data-bearing zero quintet gives `A`, a pad field, whose quintet is also 0, gives `=`. -/
def Obligations.PadSelectByPosition : Prop :=
  ∀ (n : QLen) (data : Data) (i : Fin 8),
    (i.val < dataCount n → beatByte (beat n data) i = romRead (quintet (quantumString n data) i)) ∧
    (dataCount n ≤ i.val → quintet (quantumString n data) i = 0#5 ∧ beatByte (beat n data) i = 0x3D#8) ∧
    (i.val < dataCount n → quintet (quantumString n data) i = 0#5 → beatByte (beat n data) i = 0x41#8)

/-- Rule R73: every symbol of a beat is one of the 33 codes; the first `d` are ROM codes and the others `=`, so `sym[0]` and
`sym[1]` never are. -/
def Obligations.SymbolsOfBeat : Prop :=
  ∀ (n : QLen) (data : Data) (i : Fin 8),
    symbolCode (beatByte (beat n data) i) = true ∧
    (beatByte (beat n data) i = 0x3D#8 ↔ dataCount n ≤ i.val) ∧
    (i.val < dataCount n → ∃ a, beatByte (beat n data) i = romRead a) ∧
    beatByte (beat n data) 0 ≠ 0x3D#8 ∧ beatByte (beat n data) 1 ≠ 0x3D#8

/-- Rule R74: the pack puts `sym[i]` in bits `63-8i : 56-8i`; as a byte sequence it is the eight symbols in order; it neither
drops nor reorders nor inserts one, so packing a beat's own bytes gives the beat. -/
def Obligations.PackKeepsSymbols : Prop :=
  (∀ (sym : Fin 8 → Byte) (i : Fin 8), (cat8 sym).extractLsb' (56 - 8 * i.val) 8 = sym i) ∧
  (∀ sym : Fin 8 → Byte, serialise (cat8 sym) = [sym 0, sym 1, sym 2, sym 3, sym 4, sym 5, sym 6, sym 7]) ∧
  (∀ b : Beat, cat8 (beatByte b) = b)

/-! ## The transactions and the ROM read: what each does, as an equation, so that each also completes -/

/-- Rule R89, `Q1 b0`: its encoding with 32 ignored bits, and its next state: two data symbols, six `=`. -/
def Obligations.Q1Result : Prop :=
  ∀ (b0 : Byte) (dead : BitVec 32) (s : State),
    decode (.transaction (0b001#3 ++ b0 ++ dead)) = .ok (.q1 b0) ∧
    encode (.q1 b0) = .transaction (0b001#3 ++ b0 ++ 0#32) ∧
    exec (.q1 b0) s = .next
      { s with
        outPorts :=
          { outValid := true
            outSym := romRead (b0.extractLsb' 3 5) ++ romRead (b0.extractLsb' 0 3 ++ 0b00#2) ++ 0x3D3D3D3D3D3D#48 }
        out := s.out ++ [romRead (b0.extractLsb' 3 5), romRead (b0.extractLsb' 0 3 ++ 0b00#2),
          0x3D#8, 0x3D#8, 0x3D#8, 0x3D#8, 0x3D#8, 0x3D#8] } ∧
    romRead (b0.extractLsb' 0 3 ++ 0b00#2) ∈ [0x41#8, 0x45#8, 0x49#8, 0x4D#8, 0x51#8, 0x55#8, 0x59#8, 0x34#8]

/-- Rule R90, `Q2 b0, b1`: its encoding with 24 ignored bits, and its next state: four data symbols, four `=`; the fourth is
`A` when `b1` is even and `Q` when odd. -/
def Obligations.Q2Result : Prop :=
  ∀ (b0 b1 : Byte) (dead : BitVec 24) (s : State),
    decode (.transaction (0b010#3 ++ b0 ++ b1 ++ dead)) = .ok (.q2 b0 b1) ∧
    encode (.q2 b0 b1) = .transaction (0b010#3 ++ b0 ++ b1 ++ 0#24) ∧
    exec (.q2 b0 b1) s = .next
      { s with
        outPorts :=
          { outValid := true
            outSym := romRead (b0.extractLsb' 3 5) ++ romRead (b0.extractLsb' 0 3 ++ b1.extractLsb' 6 2) ++
              romRead (b1.extractLsb' 1 5) ++ romRead (b1.extractLsb' 0 1 ++ 0b0000#4) ++ 0x3D3D3D3D#32 }
        out := s.out ++ [romRead (b0.extractLsb' 3 5), romRead (b0.extractLsb' 0 3 ++ b1.extractLsb' 6 2),
          romRead (b1.extractLsb' 1 5), romRead (b1.extractLsb' 0 1 ++ 0b0000#4),
          0x3D#8, 0x3D#8, 0x3D#8, 0x3D#8] } ∧
    romRead (b1.extractLsb' 0 1 ++ 0b0000#4) = if b1.toNat % 2 = 0 then 0x41#8 else 0x51#8

/-- Rule R91, `Q3 b0, b1, b2`: its encoding with 16 ignored bits, and its next state: five data symbols, three `=`;
the fifth is the symbol of an even quintet. -/
def Obligations.Q3Result : Prop :=
  ∀ (b0 b1 b2 : Byte) (dead : BitVec 16) (s : State),
    decode (.transaction (0b011#3 ++ b0 ++ b1 ++ b2 ++ dead)) = .ok (.q3 b0 b1 b2) ∧
    encode (.q3 b0 b1 b2) = .transaction (0b011#3 ++ b0 ++ b1 ++ b2 ++ 0#16) ∧
    exec (.q3 b0 b1 b2) s = .next
      { s with
        outPorts :=
          { outValid := true
            outSym := romRead (b0.extractLsb' 3 5) ++ romRead (b0.extractLsb' 0 3 ++ b1.extractLsb' 6 2) ++
              romRead (b1.extractLsb' 1 5) ++ romRead (b1.extractLsb' 0 1 ++ b2.extractLsb' 4 4) ++
              romRead (b2.extractLsb' 0 4 ++ 0b0#1) ++ 0x3D3D3D#24 }
        out := s.out ++ [romRead (b0.extractLsb' 3 5), romRead (b0.extractLsb' 0 3 ++ b1.extractLsb' 6 2),
          romRead (b1.extractLsb' 1 5), romRead (b1.extractLsb' 0 1 ++ b2.extractLsb' 4 4),
          romRead (b2.extractLsb' 0 4 ++ 0b0#1), 0x3D#8, 0x3D#8, 0x3D#8] } ∧
    romRead (b2.extractLsb' 0 4 ++ 0b0#1) ∈
      [0x41#8, 0x43#8, 0x45#8, 0x47#8, 0x49#8, 0x4B#8, 0x4D#8, 0x4F#8, 0x51#8, 0x53#8, 0x55#8, 0x57#8, 0x59#8, 0x32#8, 0x34#8,
        0x36#8]

/-- Rule R92, `Q4 b0, b1, b2, b3`: its encoding with 8 ignored bits, and its next state: seven data symbols, one `=`; the
seventh is one of `A`, `I`, `Q`, `Y`. -/
def Obligations.Q4Result : Prop :=
  ∀ (b0 b1 b2 b3 : Byte) (dead : BitVec 8) (s : State),
    decode (.transaction (0b100#3 ++ b0 ++ b1 ++ b2 ++ b3 ++ dead)) = .ok (.q4 b0 b1 b2 b3) ∧
    encode (.q4 b0 b1 b2 b3) = .transaction (0b100#3 ++ b0 ++ b1 ++ b2 ++ b3 ++ 0#8) ∧
    exec (.q4 b0 b1 b2 b3) s = .next
      { s with
        outPorts :=
          { outValid := true
            outSym := romRead (b0.extractLsb' 3 5) ++ romRead (b0.extractLsb' 0 3 ++ b1.extractLsb' 6 2) ++
              romRead (b1.extractLsb' 1 5) ++ romRead (b1.extractLsb' 0 1 ++ b2.extractLsb' 4 4) ++
              romRead (b2.extractLsb' 0 4 ++ b3.extractLsb' 7 1) ++ romRead (b3.extractLsb' 2 5) ++
              romRead (b3.extractLsb' 0 2 ++ 0b000#3) ++ 0x3D#8 }
        out := s.out ++ [romRead (b0.extractLsb' 3 5), romRead (b0.extractLsb' 0 3 ++ b1.extractLsb' 6 2),
          romRead (b1.extractLsb' 1 5), romRead (b1.extractLsb' 0 1 ++ b2.extractLsb' 4 4),
          romRead (b2.extractLsb' 0 4 ++ b3.extractLsb' 7 1), romRead (b3.extractLsb' 2 5),
          romRead (b3.extractLsb' 0 2 ++ 0b000#3), 0x3D#8] } ∧
    romRead (b3.extractLsb' 0 2 ++ 0b000#3) ∈ [0x41#8, 0x49#8, 0x51#8, 0x59#8]

/-- Rule R93, `Q5 b0, b1, b2, b3, b4`: its encoding, no bit ignored, and its next state: eight data symbols, no `=`. -/
def Obligations.Q5Result : Prop :=
  ∀ (b0 b1 b2 b3 b4 : Byte) (s : State),
    decode (.transaction (0b101#3 ++ b0 ++ b1 ++ b2 ++ b3 ++ b4)) = .ok (.q5 b0 b1 b2 b3 b4) ∧
    encode (.q5 b0 b1 b2 b3 b4) = .transaction (0b101#3 ++ b0 ++ b1 ++ b2 ++ b3 ++ b4) ∧
    exec (.q5 b0 b1 b2 b3 b4) s = .next
      { s with
        outPorts :=
          { outValid := true
            outSym := romRead (b0.extractLsb' 3 5) ++ romRead (b0.extractLsb' 0 3 ++ b1.extractLsb' 6 2) ++
              romRead (b1.extractLsb' 1 5) ++ romRead (b1.extractLsb' 0 1 ++ b2.extractLsb' 4 4) ++
              romRead (b2.extractLsb' 0 4 ++ b3.extractLsb' 7 1) ++ romRead (b3.extractLsb' 2 5) ++
              romRead (b3.extractLsb' 0 2 ++ b4.extractLsb' 5 3) ++ romRead (b4.extractLsb' 0 5) }
        out := s.out ++ [romRead (b0.extractLsb' 3 5), romRead (b0.extractLsb' 0 3 ++ b1.extractLsb' 6 2),
          romRead (b1.extractLsb' 1 5), romRead (b1.extractLsb' 0 1 ++ b2.extractLsb' 4 4),
          romRead (b2.extractLsb' 0 4 ++ b3.extractLsb' 7 1), romRead (b3.extractLsb' 2 5),
          romRead (b3.extractLsb' 0 2 ++ b4.extractLsb' 5 3), romRead (b4.extractLsb' 0 5)] }

/-- Rule R68, `ROMRD a`: the read port answers the alphabet's character of value `a`, at every address, and nothing else
changes; inside a transaction the same read at address `q[i]` gives the symbol of every data-bearing field. -/
def Obligations.RomrdResult : Prop :=
  ∀ (a : Quintet) (s : State),
    exec (.romrd a) s = .next { s with romQ := some (romRead a) } ∧
    (romRead a).toNat = (if a.toNat ≤ 25 then 0x41 + a.toNat else 0x18 + a.toNat) ∧
    ∀ (n : QLen) (data : Data) (i : Fin 8), i.val < dataCount n → quintet (quantumString n data) i = a →
      exec (.romrd a) s = .next { s with romQ := some (beatByte (beat n data) i) }

/-- The frame of `Q1` to `Q5` (rule R88, "Nothing else changes; there is nothing else"): of the whole state only the output
ports and `OUT` change, `OUT` keeps every byte it held and gains exactly the eight bytes of the beat on the port. `romAddr`
and `romQ` are the model's own fields (DESIGN CHOICE, unsafe, log entry 7), `draws` is too (log entry 3). -/
def Obligations.TransactionFrame : Prop :=
  ∀ (i : Instr) (s t : State), i.issuable = true → exec i s = .next t →
    t.inp = s.inp ∧ t.inPorts = s.inPorts ∧ t.romAddr = s.romAddr ∧ t.romQ = s.romQ ∧ t.draws = s.draws ∧
    t.outPorts.outValid = true ∧ t.out = s.out ++ serialise t.outPorts.outSym ∧ t.out.length = s.out.length + 8 ∧
    ∀ j, j < s.out.length → t.out[j]? = s.out[j]?

/-- The frame of `ROMRD` (rule R68, "The read has no side effect"): only the answer of the read port changes, and a second
read at any address answers as if the first had not been. -/
def Obligations.RomrdFrame : Prop :=
  (∀ (a : Quintet) (s t : State), exec (.romrd a) s = .next t →
    t.inp = s.inp ∧ t.out = s.out ∧ t.inPorts = s.inPorts ∧ t.outPorts = s.outPorts ∧ t.romAddr = s.romAddr ∧
    t.draws = s.draws) ∧
  (∀ (a b : Quintet) (s t : State), exec (.romrd a) s = .next t → exec (.romrd b) t = exec (.romrd b) s)

/-- Rule R94: (1) zero extension, (2) prefix, (3) beats of different lengths are never equal. -/
def Obligations.RelationsBetweenTransactions : Prop :=
  (∀ (n : QLen) (data : Data) (i : Fin 8),
    (i.val < dataCount n → beatByte (beat n data) i = beatByte (beat .five (quantumString n data)) i) ∧
    (dataCount n ≤ i.val → beatByte (beat .five (quantumString n data)) i = 0x41#8 ∧ beatByte (beat n data) i = 0x3D#8)) ∧
  (∀ (m n : QLen) (data : Data) (i : Fin 8), m.toNat < n.toNat → i.val + 1 < dataCount m →
    beatByte (beat m data) i = beatByte (beat n data) i) ∧
  (∀ (m n : QLen) (data data' : Data), m ≠ n → beat m data ≠ beat n data')

/-! ## Invariants -/

/-- Every step keeps the port relation of rule R19, `OUT` in whole beats that end with the latest one, and the alphabet of
rules R73 and R87, from every state where they hold. -/
def Obligations.StepKeepsObservationSound : Prop :=
  ∀ s t : State, s.Inv → step s = .next t → t.Inv

/-- The state before any evaluation satisfies it. -/
def Obligations.ResetObservationSound : Prop :=
  State.reset.Inv

/-- Rules R23 and R106, and log entry 4 for what they leave to the model (`IN` is empty, no ROM read has been made): before
any evaluation nothing is presented, `out_valid = 0` and `OUT = []`. It says nothing of the ports that may carry anything. -/
def Obligations.ResetContents : Prop :=
  State.reset.inp = [] ∧ State.reset.out = [] ∧ State.reset.inPorts.inValid = false ∧
  State.reset.outPorts.outValid = false ∧ State.reset.romAddr = none ∧ State.reset.romQ = none

/-- Rule R49 on `ROMRD`, "not something the host can issue": no step leaves an address on the ROM's read port. The second
clause is no rule of the spec but the model's own choice (DESIGN CHOICE, unsafe, log entry 7): the port keeps its latest
answer, so while no address is there no step changes it. -/
def Obligations.RomPortNeverDriven : Prop :=
  ∀ s t : State, step s = .next t → t.romAddr = none ∧ (s.romAddr = none → t.romQ = s.romQ)

/-! ## Runs and whole sequences -/

/-- Rule R39 with rules R75 and R40: from any state, a stream of legal transactions with pauses anywhere appends the beats of
its transactions, in their order and nothing else, and the run is over. -/
def Obligations.StreamGivesBeatsInOrder : Prop :=
  ∀ (s : State) (l : List InPorts), s.romAddr = none → s.inp = l → legalStream l = true →
    ∃ t, Run.after l.length { state := s, refusal := none } = { state := t, refusal := none } ∧
      t.out = s.out ++ (l.filter (fun p => p.inValid)).flatMap beatBytes ∧ t.pending = []

/-- Rule R52 (with rules R75 and R79): a reserved length is refused with no beat and nothing appended, and the refusal is
recorded and kept for the rest of the run; a run with a reserved word anywhere in `IN` is never over; a host that keeps rule
R77 presents none. -/
def Obligations.ReservedWordRefusedForGood : Prop :=
  (∀ (s : State) (p : InPorts) (rest : List InPorts) (k : Nat), s.romAddr = none → s.inp = p :: rest →
    p.inValid = true → (p.inLen = 0#3 ∨ p.inLen = 6#3 ∨ p.inLen = 7#3) →
    step s = .refused (.reservedLen p.inLen) ∧
    Run.after (k + 1) { state := s, refusal := none } = { state := s, refusal := some (.reservedLen p.inLen) }) ∧
  (∀ (s : State) (p : InPorts) (k : Nat), p ∈ s.inp → p.inValid = true →
    (p.inLen = 0#3 ∨ p.inLen = 6#3 ∨ p.inLen = 7#3) → (Run.after k { state := s, refusal := none }).over = false) ∧
  (∀ (bytes : List Byte) (p : InPorts), p ∈ partition bytes → ¬(p.inLen = 0#3 ∨ p.inLen = 6#3 ∨ p.inLen = 7#3))

/-- Rule R77: `partition(B)` has `ceil(L / 5)` transactions; transaction `j` has length `min(5, L - 5j)` and carries
`B[5j + k]` on live lane `k`; every length is 1 to 5, and only the last can be under 5. -/
def Obligations.PartitionShape : Prop :=
  ∀ bytes : List Byte,
    (partition bytes).length = (bytes.length + 4) / 5 ∧
    (∀ j, j < (bytes.length + 4) / 5 → ∃ p, (partition bytes)[j]? = some p ∧ p.inValid = true ∧
      p.inLen.toNat = min 5 (bytes.length - 5 * j) ∧ 1 ≤ p.inLen.toNat ∧
      (j + 1 < (bytes.length + 4) / 5 → p.inLen.toNat = 5) ∧
      (j + 1 = (bytes.length + 4) / 5 →
        p.inLen.toNat = if bytes.length % 5 = 0 then 5 else bytes.length % 5) ∧
      ∀ k : Fin 5, k.val < p.inLen.toNat → some (lane p.inData k) = bytes[5 * j + k.val]?) ∧
    (partition bytes).flatMap liveBytes = bytes

/-- Rule R56: `ENCODE` over `L` bytes expands to `L div 5` times `Q5` and then, if `L mod 5 = r > 0`, one `Qr`; its words are
those of `partition(B)`; it is a program the host may run. -/
def Obligations.EncodeExpansion : Prop :=
  ∀ bytes : List Byte,
    (expandEncode bytes).map encode = (partition bytes).map (fun p => .transaction (mkWord p.inLen p.inData)) ∧
    (expandEncode bytes).length = (bytes.length + 4) / 5 ∧
    ((expandEncode bytes).take (bytes.length / 5)).all Instr.isFull = true ∧
    (((expandEncode bytes).drop (bytes.length / 5)).all (fun i => !i.isFull)) = true ∧
    wellFormedProgram (expandEncode bytes) = true

/-- Rule R78: `encode(B)`, read off the run of the machine, is the beats of `partition(B)` one after another. -/
def Obligations.EncodeIsBeatsOfPartition : Prop :=
  ∀ bytes : List Byte, encodeBytes bytes = (partition bytes).flatMap beatBytes

/-- Rule R86 (and the claim shape of rule R22): whatever a host that keeps the contract leaves on dead lanes and however it
pauses, its run is over with no refusal and `OUT = encode(B)`. -/
def Obligations.EveryPresentationEncodes : Prop :=
  ∀ (bytes : List Byte) (l : List InPorts), Presents bytes l →
    (Run.after l.length (launch l)).over = true ∧ (Run.after l.length (launch l)).refusal = none ∧
      (Run.after l.length (launch l)).state.out = encodeBytes bytes

/-- Rule R80 (with rule R79): a run over `partition(B)` takes exactly `ceil(L / 5)` steps: after `k` of them `OUT` holds
`8k` bytes, the run is not over before the last and is over after it. -/
def Obligations.RunTakesOneStepPerQuantum : Prop :=
  ∀ (bytes : List Byte) (k : Nat), k ≤ (bytes.length + 4) / 5 →
    (Run.after k (launch (partition bytes))).state.out.length = 8 * k ∧
    ((Run.after k (launch (partition bytes))).over = true ↔ k = (bytes.length + 4) / 5) ∧
    ∀ p ∈ partition bytes, (liveBytes p).length ≤ 5

/-- Rule R81: the length of the output. -/
def Obligations.OutputLength : Prop :=
  ∀ bytes : List Byte,
    (encodeBytes bytes).length = 8 * ((bytes.length + 4) / 5) ∧ (encodeBytes bytes).length % 8 = 0

/-- Rule R82: the `=` are a suffix that lies wholly in the last group of eight; no other group contains one, and no data
symbol follows one. -/
def Obligations.PaddingIsFinalSuffix : Prop :=
  ∀ bytes : List Byte,
    (∃ data k, encodeBytes bytes = data ++ List.replicate k padCode ∧ padCode ∉ data ∧ k < 8) ∧
    (∀ i, (encodeBytes bytes)[i]? = some padCode →
      (encodeBytes bytes).length ≤ i + 8 ∧
        ∀ j, i ≤ j → j < (encodeBytes bytes).length → (encodeBytes bytes)[j]? = some padCode)

/-- Rule R83: the number of `=` is fixed by `L mod 5`. -/
def Obligations.PaddingCount : Prop :=
  ∀ bytes : List Byte,
    (bytes.length % 5 = 0 → (encodeBytes bytes).count padCode = 0) ∧
    (bytes.length % 5 = 1 → (encodeBytes bytes).count padCode = 6) ∧
    (bytes.length % 5 = 2 → (encodeBytes bytes).count padCode = 4) ∧
    (bytes.length % 5 = 3 → (encodeBytes bytes).count padCode = 3) ∧
    (bytes.length % 5 = 4 → (encodeBytes bytes).count padCode = 1)

/-- Rule R84: the empty input gives no transaction and the empty output, not eight `=`. -/
def Obligations.EmptyInput : Prop :=
  partition [] = [] ∧ encodeBytes [] = [] ∧ encodeBytes [] ≠ List.replicate 8 padCode

/-- Rule R85: the concatenation law at 5-byte splits; that it fails at every other split with a non-empty rest; and the two
strings of the rule's own misaligned split. -/
def Obligations.ConcatenationLaw : Prop :=
  (∀ pre suf : List Byte, pre.length % 5 = 0 → encodeBytes (pre ++ suf) = encodeBytes pre ++ encodeBytes suf) ∧
  (∀ pre suf : List Byte, pre.length % 5 ≠ 0 → suf ≠ [] → encodeBytes (pre ++ suf) ≠ encodeBytes pre ++ encodeBytes suf) ∧
  encodeBytes [0x66#8] ++ encodeBytes [0x6F#8] =
    [0x4D#8, 0x59#8, 0x3D#8, 0x3D#8, 0x3D#8, 0x3D#8, 0x3D#8, 0x3D#8,
      0x4E#8, 0x34#8, 0x3D#8, 0x3D#8, 0x3D#8, 0x3D#8, 0x3D#8, 0x3D#8] ∧
  encodeBytes [0x66#8, 0x6F#8] = [0x4D#8, 0x5A#8, 0x58#8, 0x51#8, 0x3D#8, 0x3D#8, 0x3D#8, 0x3D#8]

/-- The first half of rule R87: every byte of the output is one of the 33 codes. -/
def Obligations.OutputAlphabet : Prop :=
  ∀ (bytes : List Byte) (b : Byte), b ∈ encodeBytes bytes → symbolCode b = true

/-- Different inputs have different outputs. `42_concatenator.md` section 4 gives it as its own inference: "Injectivity is this
spec's observation, not a statement of the source." -/
def Obligations.DifferentInputsDifferentOutputs : Prop :=
  ∀ bytes bytes' : List Byte, encodeBytes bytes = encodeBytes bytes' → bytes = bytes'

/-- Rule R31: a partial quantum that is not the last is computed like any other and the run completes; `OUT` then has `=` in
a group that is not the last, and is not `encode` of the bytes presented. -/
def Obligations.MisalignedPresentation : Prop :=
  ∀ (l before after : List InPorts) (p q : InPorts), legalStream l = true →
    l.filter (fun x => x.inValid) = before ++ p :: q :: after → p.inLen.toNat < 5 →
    (Run.after l.length (launch l)).over = true ∧
    (Run.after l.length (launch l)).state.out = (before ++ p :: q :: after).flatMap beatBytes ∧
    (∃ i, (Run.after l.length (launch l)).state.out[i]? = some padCode ∧
      i + 8 < (Run.after l.length (launch l)).state.out.length) ∧
    (Run.after l.length (launch l)).state.out ≠ encodeBytes ((before ++ p :: q :: after).flatMap liveBytes)

/-- The machine's runs against the encoding that names no quantum: the input as one big-endian bit string (rule R24), cut
into fields of five (rule R26), each mapped to its character (rule R69), and `=` up to a multiple of eight. -/
def Obligations.EncodeMeetsBitStringReference : Prop :=
  ∀ bytes : List Byte, encodeBytes bytes = referenceEncode bytes
end

