-- ==== Sys2Proof/Laws/State.lean ====
section
/-! SUPPORT. One lemma per field per update of the state, each true by definition. -/

namespace Sys2Proof.Machine

@[simp] theorem present_inp (p : InPorts) (rest : List InPorts) (s : State) : (present p rest s).inp = rest := rfl
@[simp] theorem present_out (p : InPorts) (rest : List InPorts) (s : State) : (present p rest s).out = s.out := rfl
@[simp] theorem present_inPorts (p : InPorts) (rest : List InPorts) (s : State) :
    (present p rest s).inPorts = p := rfl
@[simp] theorem present_outPorts (p : InPorts) (rest : List InPorts) (s : State) :
    (present p rest s).outPorts = s.outPorts := rfl
@[simp] theorem present_romAddr (p : InPorts) (rest : List InPorts) (s : State) :
    (present p rest s).romAddr = s.romAddr := rfl
@[simp] theorem present_romQ (p : InPorts) (rest : List InPorts) (s : State) : (present p rest s).romQ = s.romQ := rfl
@[simp] theorem present_draws (p : InPorts) (rest : List InPorts) (s : State) :
    (present p rest s).draws = s.draws := rfl

@[simp] theorem deliver_inp (b : Beat) (s : State) : (deliver b s).inp = s.inp := rfl
@[simp] theorem deliver_out (b : Beat) (s : State) : (deliver b s).out = s.out ++ serialise b := rfl
@[simp] theorem deliver_inPorts (b : Beat) (s : State) : (deliver b s).inPorts = s.inPorts := rfl
@[simp] theorem deliver_outPorts (b : Beat) (s : State) :
    (deliver b s).outPorts = { outValid := true, outSym := b } := rfl
@[simp] theorem deliver_romAddr (b : Beat) (s : State) : (deliver b s).romAddr = s.romAddr := rfl
@[simp] theorem deliver_romQ (b : Beat) (s : State) : (deliver b s).romQ = s.romQ := rfl
@[simp] theorem deliver_draws (b : Beat) (s : State) : (deliver b s).draws = s.draws := rfl

@[simp] theorem noBeat_inp (s : State) : (noBeat s).inp = s.inp := rfl
@[simp] theorem noBeat_out (s : State) : (noBeat s).out = s.out := rfl
@[simp] theorem noBeat_inPorts (s : State) : (noBeat s).inPorts = s.inPorts := rfl
@[simp] theorem noBeat_outValid (s : State) : (noBeat s).outPorts.outValid = false := rfl
@[simp] theorem noBeat_romAddr (s : State) : (noBeat s).romAddr = s.romAddr := rfl
@[simp] theorem noBeat_romQ (s : State) : (noBeat s).romQ = s.romQ := rfl
@[simp] theorem noBeat_draws (s : State) : (noBeat s).draws = s.draws + 1 := rfl

@[simp] theorem undriven_inValid (s : State) : (undriven s).inValid = false := rfl

@[simp] theorem takeRomAddr_inp (s : State) : (takeRomAddr s).inp = s.inp := rfl
@[simp] theorem takeRomAddr_out (s : State) : (takeRomAddr s).out = s.out := rfl
@[simp] theorem takeRomAddr_inPorts (s : State) : (takeRomAddr s).inPorts = s.inPorts := rfl
@[simp] theorem takeRomAddr_outPorts (s : State) : (takeRomAddr s).outPorts = s.outPorts := rfl
@[simp] theorem takeRomAddr_romAddr (s : State) : (takeRomAddr s).romAddr = none := rfl
@[simp] theorem takeRomAddr_romQ (s : State) : (takeRomAddr s).romQ = s.romQ := rfl
@[simp] theorem takeRomAddr_draws (s : State) : (takeRomAddr s).draws = s.draws := rfl

@[simp] theorem answerRom_inp (q : Byte) (s : State) : (answerRom q s).inp = s.inp := rfl
@[simp] theorem answerRom_out (q : Byte) (s : State) : (answerRom q s).out = s.out := rfl
@[simp] theorem answerRom_inPorts (q : Byte) (s : State) : (answerRom q s).inPorts = s.inPorts := rfl
@[simp] theorem answerRom_outPorts (q : Byte) (s : State) : (answerRom q s).outPorts = s.outPorts := rfl
@[simp] theorem answerRom_romAddr (q : Byte) (s : State) : (answerRom q s).romAddr = s.romAddr := rfl
@[simp] theorem answerRom_romQ (q : Byte) (s : State) : (answerRom q s).romQ = some q := rfl
@[simp] theorem answerRom_draws (q : Byte) (s : State) : (answerRom q s).draws = s.draws := rfl

end Sys2Proof.Machine
end

