-- ==== Sys2Proof/Laws/Ops.lean ====
section
/-! SUPPORT. What each shared operation can do, said once: the splitter bit by bit, the beat's blindness to dead lanes, and
the cases of a fetch and of a step. -/

namespace Sys2Proof.Machine

/-! ## Lengths -/

theorem lenOfBits_toBits (n : QLen) : lenOfBits n.toBits = some n := by cases n <;> rfl

theorem lenOfBits_eq_some_iff (len : LenBits) (n : QLen) : lenOfBits len = some n ↔ len = n.toBits := by
  revert len
  cases n <;> decide

theorem lenOfBits_eq_none_iff (len : LenBits) : lenOfBits len = none ↔ legalLen len = false := by
  revert len
  decide

/-! ## Fields of a word -/

theorem getLsbD_mkWord (len : LenBits) (data : Data) (j : Nat) :
    (mkWord len data).getLsbD j = if j < 40 then data.getLsbD j else len.getLsbD (j - 40) := by
  simp only [mkWord, BitVec.getLsbD_append]

@[simp] theorem wordLen_mkWord (len : LenBits) (data : Data) : wordLen (mkWord len data) = len := by
  apply BitVec.eq_of_getLsbD_eq
  intro i hi
  simp [wordLen, getLsbD_mkWord, hi]

@[simp] theorem wordData_mkWord (len : LenBits) (data : Data) : wordData (mkWord len data) = data := by
  apply BitVec.eq_of_getLsbD_eq
  intro i hi
  simp [wordData, getLsbD_mkWord, hi]

@[simp] theorem mkWord_fields (tw : TxWord) : mkWord (wordLen tw) (wordData tw) = tw := by
  apply BitVec.eq_of_getLsbD_eq
  intro i hi
  rw [getLsbD_mkWord]
  split
  · simp [wordData, *]
  · have h1 : i - 40 < 3 := by omega
    have h2 : 40 + (i - 40) = i := by omega
    simp [wordLen, h1, h2]

theorem getLsbD_lane (data : Data) (k : Fin 5) (j : Nat) :
    (lane data k).getLsbD j = (decide (j < 8) && data.getLsbD (32 - 8 * k.val + j)) := by
  simp [lane]

/-- A bit of packed lanes is a bit of the lane it lies in. -/
theorem getLsbD_packLanes (b0 b1 b2 b3 b4 : Byte) (j : Nat) :
    (packLanes b0 b1 b2 b3 b4).getLsbD j =
      if j < 8 then b4.getLsbD j else if j < 16 then b3.getLsbD (j - 8) else
        if j < 24 then b2.getLsbD (j - 16) else if j < 32 then b1.getLsbD (j - 24) else b0.getLsbD (j - 32) := by
  simp only [packLanes, BitVec.getLsbD_append, Nat.sub_sub]
  split_ifs <;> first | rfl | omega

theorem lane_packLanes (b0 b1 b2 b3 b4 : Byte) :
    lane (packLanes b0 b1 b2 b3 b4) 0 = b0 ∧ lane (packLanes b0 b1 b2 b3 b4) 1 = b1 ∧
      lane (packLanes b0 b1 b2 b3 b4) 2 = b2 ∧ lane (packLanes b0 b1 b2 b3 b4) 3 = b3 ∧
      lane (packLanes b0 b1 b2 b3 b4) 4 = b4 := by
  refine ⟨?_, ?_, ?_, ?_, ?_⟩ <;>
  · apply BitVec.eq_of_getLsbD_eq
    intro j hj
    rw [getLsbD_lane, getLsbD_packLanes]
    simp [hj]
    try (split_ifs <;> first | rfl | omega)

/-! ## The splitter and the beat -/

theorem mbyte_live (n : QLen) (data : Data) (k : Fin 5) (h : k.val < n.toNat) : mbyte n data k = lane data k := by
  simp [mbyte, laneEn, h]

theorem mbyte_dead (n : QLen) (data : Data) (k : Fin 5) (h : n.toNat ≤ k.val) : mbyte n data k = 0x00#8 := by
  simp [mbyte, laneEn, Nat.not_lt.mpr h]

/-- The quantum string depends on the live lanes alone. -/
theorem quantumString_congr (n : QLen) (data data' : Data)
    (h : ∀ k : Fin 5, k.val < n.toNat → lane data k = lane data' k) :
    quantumString n data = quantumString n data' := by
  have hm : mbyte n data = mbyte n data' := by
    funext k
    by_cases hk : k.val < n.toNat
    · rw [mbyte_live n data k hk, mbyte_live n data' k hk, h k hk]
    · rw [mbyte_dead n data k (by omega), mbyte_dead n data' k (by omega)]
  simp only [quantumString, hm]

/-- So does the beat. -/
theorem beat_congr (n : QLen) (data data' : Data)
    (h : ∀ k : Fin 5, k.val < n.toNat → lane data k = lane data' k) : beat n data = beat n data' := by
  have hs : symbol n data = symbol n data' := by
    funext i
    simp only [symbol, quantumString_congr n data data' h]
  simp only [beat, hs]

@[simp] theorem length_serialise (b : Beat) : (serialise b).length = 8 := rfl

/-! ## What an instruction, an evaluation, a fetch and a step can do -/

/-- The operation of length `n` on any lanes, the dead ones too, delivers the beat of those lanes. -/
theorem exec_quantumInstr (n : QLen) (data : Data) (s : State) :
    exec (quantumInstr n data) s = .next (deliver (beat n data) s) := by
  have key (d : Data) (h : ∀ k : Fin 5, k.val < n.toNat → lane d k = lane data k) :
      deliver (beat n d) s = deliver (beat n data) s := by rw [beat_congr n d data h]
  cases n <;>
  · refine congrArg Host.Outcome.next (key _ fun k hk => ?_)
    have hk' : k = 0 ∨ k = 1 ∨ k = 2 ∨ k = 3 ∨ k = 4 := by omega
    simp only [QLen.toNat] at hk
    rcases hk' with rfl | rfl | rfl | rfl | rfl <;> first | (exfalso; revert hk; decide) | simp only [lane_packLanes]

/-- An issuable instruction delivers one beat and does nothing else. -/
theorem exec_issuable (i : Instr) (s : State) (h : i.issuable = true) : ∃ b, exec i s = .next (deliver b s) := by
  cases i with
  | romrd a => cases h
  | _ => exact ⟨_, rfl⟩

theorem exec_romrd (a : Quintet) (s : State) : exec (.romrd a) s = .next (answerRom (romRead a) s) := rfl

/-- The three things an evaluation can turn out to be. -/
theorem evaluate_cases (p : InPorts) (s : State) :
    (p.inValid = false ∧ evaluate p s = .idle (noBeat s)) ∨
    (∃ n, p.inValid = true ∧ lenOfBits p.inLen = some n ∧ evaluate p s = .run (quantumInstr n p.inData) s) ∨
    (p.inValid = true ∧ lenOfBits p.inLen = none ∧ evaluate p s = .refuse (.reservedLen p.inLen)) := by
  unfold evaluate
  cases hv : p.inValid with
  | false => simp
  | true =>
    cases hn : lenOfBits p.inLen with
    | none => simp [decode, decodeWord, portWord, hn, refusalOf]
    | some n => simp [decode, decodeWord, portWord, hn]

/-- Everything a step can do, from the state before it. -/
theorem step_cases (s : State) :
    (∃ a, s.romAddr = some a ∧ step s = .next (answerRom (romRead a) (takeRomAddr s))) ∨
    (s.romAddr = none ∧ s.inp = [] ∧ step s = .next (noBeat (present (undriven s) [] s))) ∨
    (∃ p rest, s.romAddr = none ∧ s.inp = p :: rest ∧ p.inValid = false ∧ step s = .next (noBeat (present p rest s))) ∨
    (∃ p rest n, s.romAddr = none ∧ s.inp = p :: rest ∧ p.inValid = true ∧ lenOfBits p.inLen = some n ∧
      step s = .next (deliver (beat n p.inData) (present p rest s))) ∨
    (∃ p rest, s.romAddr = none ∧ s.inp = p :: rest ∧ p.inValid = true ∧ lenOfBits p.inLen = none ∧
      step s = .refused (.reservedLen p.inLen)) := by
  cases ha : s.romAddr with
  | some a => exact .inl ⟨a, rfl, by simp [step, fetch, ha, exec_romrd]⟩
  | none =>
    right
    cases hi : s.inp with
    | nil => exact .inl ⟨rfl, rfl, by simp [step, fetch, ha, hi, evaluate]⟩
    | cons p rest =>
      right
      have hf : fetch s = evaluate p (present p rest s) := by simp [fetch, ha, hi]
      rcases evaluate_cases p (present p rest s) with ⟨hv, he⟩ | ⟨n, hv, hn, he⟩ | ⟨hv, hn, he⟩
      · exact .inl ⟨p, rest, rfl, rfl, hv, by simp [step, hf, he]⟩
      · exact .inr (.inl ⟨p, rest, n, rfl, rfl, hv, hn, by simp [step, hf, he, exec_quantumInstr]⟩)
      · exact .inr (.inr ⟨p, rest, rfl, rfl, hv, hn, by simp [step, hf, he]⟩)

end Sys2Proof.Machine
end

