-- ==== Sys2Proof/Laws/PerInstr.lean ====
section
/-! SUPPORT. Statements for all instructions, one lemma per constructor. -/

namespace Sys2Proof.Laws.TableRow

/-- The row of `opcode_table.json` an instruction stands in, as its `mask` and `match`; a `ROMRD` has neither a fixed bit nor
a transaction word. -/
def row : Instr → Nat × Nat
  | .q1 _ => (0x70000000000, 0x10000000000)
  | .q2 _ _ => (0x70000000000, 0x20000000000)
  | .q3 _ _ _ => (0x70000000000, 0x30000000000)
  | .q4 _ _ _ _ => (0x70000000000, 0x40000000000)
  | .q5 _ _ _ _ _ => (0x70000000000, 0x50000000000)
  | .romrd _ => (0, 0)

/-- The word `encode` writes for an instruction has its row's fixed bits. -/
def Statement (i : Instr) : Prop :=
  match encode i with
  | .transaction tw => tw &&& BitVec.ofNat 43 (row i).1 = BitVec.ofNat 43 (row i).2
  | .romAddress a => a &&& BitVec.ofNat 5 (row i).1 = BitVec.ofNat 5 (row i).2

/-- The mask keeps the length field and nothing else. -/
theorem mkWord_and_mask (len : LenBits) (data : Data) :
    mkWord len data &&& 0x70000000000#43 = mkWord len 0#40 := by
  have hm : (0x70000000000#43 : TxWord) = mkWord 7#3 0#40 := by decide
  rw [hm]
  apply BitVec.eq_of_getLsbD_eq
  intro i hi
  rw [BitVec.getLsbD_and, Machine.getLsbD_mkWord, Machine.getLsbD_mkWord, Machine.getLsbD_mkWord]
  split
  · simp
  · have h : ∀ j < 3, (7#3 : LenBits).getLsbD j = true := by decide
    rw [h (i - 40) (by omega), Bool.and_true]

theorem q1 (b0 : Byte) : Statement (.q1 b0) := (mkWord_and_mask _ _).trans
  (show mkWord 1#3 0#40 = 0x10000000000#43 by decide)
theorem q2 (b0 b1 : Byte) : Statement (.q2 b0 b1) := (mkWord_and_mask _ _).trans
  (show mkWord 2#3 0#40 = 0x20000000000#43 by decide)
theorem q3 (b0 b1 b2 : Byte) : Statement (.q3 b0 b1 b2) := (mkWord_and_mask _ _).trans
  (show mkWord 3#3 0#40 = 0x30000000000#43 by decide)
theorem q4 (b0 b1 b2 b3 : Byte) : Statement (.q4 b0 b1 b2 b3) := (mkWord_and_mask _ _).trans
  (show mkWord 4#3 0#40 = 0x40000000000#43 by decide)
theorem q5 (b0 b1 b2 b3 b4 : Byte) : Statement (.q5 b0 b1 b2 b3 b4) := (mkWord_and_mask _ _).trans
  (show mkWord 5#3 0#40 = 0x50000000000#43 by decide)
theorem romrd (a : Quintet) : Statement (.romrd a) := BitVec.and_zero

end Sys2Proof.Laws.TableRow
end

