-- ==== Sys2Proof/Tests/Slice0.lean ====
section
/-! SUPPORT. Tests: the checks of `WellFormed.lean` on ill-formed terms, words written out from the spec's encodings, one
step of each instruction against `95_test_vectors.md`, and for every statement with hypotheses a case that meets them. -/

namespace Sys2Proof.Tests

open Sys2Proof.Machine

/-! ## Helpers -/

/-- A small state with `l` to drive. -/
def demo (l : List InPorts) : State where
  inp := l
  out := []
  inPorts := { inValid := false, inLen := 0#3, inData := 0#40 }
  outPorts := { outValid := false, outSym := 0#64 }
  romAddr := none
  romQ := none
  draws := 0

/-- A transaction on the ports, by its word. -/
def tx (tw : TxWord) : InPorts := portsOfWord tw

/-- An evaluation with `in_valid = 0` and a reserved length on the ignored `in_len`. -/
def pause : InPorts := { inValid := false, inLen := 7#3, inData := 0xFFFFFFFFFF#40 }

/-- `OUT` after a step, if there is a next state. -/
def outOf : Host.Outcome State Fault Refusal → Option (List Byte)
  | .next s => some s.out
  | _ => none

/-- The output ports after a step, if there is a next state. -/
def portsOf : Host.Outcome State Fault Refusal → Option OutPorts
  | .next s => some s.outPorts
  | _ => none

/-- The ROM port's answer after a step, if there is a next state. -/
def romOf : Host.Outcome State Fault Refusal → Option (Option Byte)
  | .next s => some s.romQ
  | _ => none

/-- The refusal, if the step is refused. -/
def refusalIn : Host.Outcome State Fault Refusal → Option Refusal
  | .refused r => some r
  | _ => none

/-! ## WellFormed: each check refuses an ill-formed term. `Instr.wellFormed` has none: its operand types are exact. -/

theorem test_legalLen_refuses_zero : legalLen 0#3 = false := by decide
theorem test_legalLen_refuses_six : legalLen 6#3 = false := by decide
theorem test_legalWord_refuses_reserved : legalWord 0x6666F6F6261#43 = false := by decide
theorem test_canonicalWord_refuses_dead_lanes : canonicalWord 0x166FFFFFFFF#43 = false := by decide
theorem test_canonicalWord_refuses_reserved : canonicalWord 0#43 = false := by decide
theorem test_issuable_refuses_romrd : (Instr.romrd 0#5).issuable = false := by decide
theorem test_isFull_refuses_partial : (Instr.q4 0#8 0#8 0#8 0#8).isFull = false := by decide
theorem test_program_refuses_romrd : wellFormedProgram [.romrd 0#5] = false := by decide
/-- Program P5 of section 3: a partial quantum that is not last. -/
theorem test_program_refuses_partial_first :
    wellFormedProgram [.q2 0x66#8 0x6F#8, .q5 0x6F#8 0x62#8 0x61#8 0x72#8 0x21#8] = false := by decide

/-! ## Decoding: words written out bit by bit from `30_encoding.md` rules R46 and R49 -/

theorem test_decode_q1 : decode (.transaction 0b001_01100110_00000000_00000000_00000000_00000000#43) =
    .ok (.q1 0b01100110#8) := by decide
theorem test_decode_q2 : decode (.transaction 0b010_01100110_01101111_00000000_00000000_00000000#43) =
    .ok (.q2 0b01100110#8 0b01101111#8) := by decide
theorem test_decode_q3_dead_lanes : decode (.transaction 0b011_01100110_01101111_01110000_11111111_11111111#43) =
    .ok (.q3 0b01100110#8 0b01101111#8 0b01110000#8) := by decide
theorem test_decode_q4 : decode (.transaction 0b100_01100110_01101111_01110000_01100010_00000000#43) =
    .ok (.q4 0b01100110#8 0b01101111#8 0b01110000#8 0b01100010#8) := by decide
theorem test_decode_q5 : decode (.transaction 0b101_01100110_01101111_01110000_01100010_01100001#43) =
    .ok (.q5 0b01100110#8 0b01101111#8 0b01110000#8 0b01100010#8 0b01100001#8) := by decide
theorem test_decode_romrd : decode (.romAddress 0b11010#5) = .ok (.romrd 26#5) := by decide
theorem test_decode_reserved : decode (.transaction 0b110_01100110_01101111_01101111_01100010_01100001#43) =
    .error (.reservedLen 6#3) := by decide
theorem test_table_word_q4 : decodeTableWord 48 0x4666F6F62FF = some (.q4 0x66#8 0x6F#8 0x6F#8 0x62#8) := by decide
theorem test_table_word_romrd : decodeTableWord 8 31 = some (.romrd 31#5) := by decide
theorem test_table_word_too_wide : decodeTableWord 8 32 = none ∧ decodeTableWord 48 0x80000000000 = none := by decide

/-! ## One step of each instruction (vectors of `95_test_vectors.md` sections 2.2, 2.5 and 2.6) -/

/-- V-Q16: dead lanes `FF`. -/
theorem test_step_q1_dead_lanes : portsOf (step (demo [tx 0x166FFFFFFFF#43])) =
    some { outValid := true, outSym := 0x4D593D3D3D3D3D3D#64 } := by decide
/-- V-Q20: the last field's bits alone. -/
theorem test_step_q1_low_bits : portsOf (step (demo [tx 0x10700000000#43])) =
    some { outValid := true, outSym := 0x41343D3D3D3D3D3D#64 } := by decide
/-- V-Q23: `b1[7:1]` alone. -/
theorem test_step_q2 : portsOf (step (demo [tx 0x200FE000000#43])) =
    some { outValid := true, outSym := 0x414437413D3D3D3D#64 } := by decide
/-- V-Q22: `b1[0]` alone. -/
theorem test_step_q2_low_bit : portsOf (step (demo [tx 0x20001000000#43])) =
    some { outValid := true, outSym := 0x414141513D3D3D3D#64 } := by decide
/-- V-Q18: dead lanes `FF`. -/
theorem test_step_q3_dead_lanes : portsOf (step (demo [tx 0x3666F6FFFFF#43])) =
    some { outValid := true, outSym := 0x4D5A5857363D3D3D#64 } := by decide
/-- V-Q25: `b2[7:4]` alone. -/
theorem test_step_q3 : portsOf (step (demo [tx 0x30000F00000#43])) =
    some { outValid := true, outSym := 0x41414150413D3D3D#64 } := by decide
/-- V-Q27: `b3[7:2]` alone. -/
theorem test_step_q4 : portsOf (step (demo [tx 0x4000000FC00#43])) =
    some { outValid := true, outSym := 0x414141414237413D#64 } := by decide
/-- V-Q14: ones. -/
theorem test_step_q4_ones : portsOf (step (demo [tx 0x4FFFFFFFF00#43])) =
    some { outValid := true, outSym := 0x373737373737593D#64 } := by decide
/-- V-C3: `OUT` grows at its end, `sym[0]` first. -/
theorem test_step_appends : outOf (step { demo [tx 0x17200000000#43] with
      out := [0x4D#8, 0x5A#8, 0x58#8, 0x57#8, 0x36#8, 0x59#8, 0x54#8, 0x42#8] }) =
    some [0x4D#8, 0x5A#8, 0x58#8, 0x57#8, 0x36#8, 0x59#8, 0x54#8, 0x42#8,
      0x4F#8, 0x49#8, 0x3D#8, 0x3D#8, 0x3D#8, 0x3D#8, 0x3D#8, 0x3D#8] := by decide
/-- V-Q28: the lanes of V-Q3 with `len = 5`: `A`, not `=`. -/
theorem test_step_q5_zero_lanes : portsOf (step (demo [tx 0x5666F6F0000#43])) =
    some { outValid := true, outSym := 0x4D5A585736414141#64 } := by decide
/-- V-R8: across the letter-digit boundary. -/
theorem test_step_q5_high_quintets : portsOf (step (demo [tx 0x5C675BE77DF#43])) =
    some { outValid := true, outSym := 0x595A323334353637#64 } := by decide
/-- V-R2 and V-R3: `ROMRD 25` and `ROMRD 26`. -/
theorem test_step_romrd : romOf (step { demo [] with romAddr := some 25#5 }) = some (some 0x5A#8) ∧
    romOf (step { demo [] with romAddr := some 26#5 }) = some (some 0x32#8) := by decide
/-- Rule R69's last address. -/
theorem test_step_romrd_top : romOf (step { demo [] with romAddr := some 31#5 }) = some (some 0x37#8) := by decide
/-- V-X1 and V-X4: reserved lengths give no beat. -/
theorem test_step_reserved : refusalIn (step (demo [tx 0#43])) = some (.reservedLen 0#3) ∧
    refusalIn (step (demo [tx 0x7FFFFFFFFFF#43])) = some (.reservedLen 7#3) := by decide
/-- V-C4: `in_valid = 0`, on a length that would be reserved. -/
theorem test_step_pause : outOf (step (demo [pause])) = some [] ∧
    (portsOf (step (demo [pause]))).map OutPorts.outValid = some false := by decide
/-- A table word placed after reset runs at the very next step (V-Q5, and V-R1 at the ROM's port). -/
theorem test_step_after_reset :
    portsOf (step (State.reset.withFetchWord 48 0x5666F6F6261)) =
      some { outValid := true, outSym := 0x4D5A585736595442#64 } ∧
    romOf (step (State.reset.withFetchWord 8 0)) = some (some 0x41#8) := by decide
/-- Section 2.7, V-E11, and section 1.1, S4. -/
theorem test_encode_foobar : encodeBytes [0x66#8, 0x6F#8, 0x6F#8, 0x62#8, 0x61#8, 0x72#8] =
    [0x4D#8, 0x5A#8, 0x58#8, 0x57#8, 0x36#8, 0x59#8, 0x54#8, 0x42#8,
      0x4F#8, 0x49#8, 0x3D#8, 0x3D#8, 0x3D#8, 0x3D#8, 0x3D#8, 0x3D#8] := by decide
/-- V-E16, by the bit-string reference. -/
theorem test_reference_deadbeef : referenceEncode [0xDE#8, 0xAD#8, 0xBE#8, 0xEF#8] =
    [0x33#8, 0x32#8, 0x57#8, 0x33#8, 0x35#8, 0x33#8, 0x59#8, 0x3D#8] := by decide

/-! ## Witnesses: for every statement with hypotheses, a case that meets them together -/

theorem witness_DecodeOfEncode : (Instr.q5 1#8 2#8 3#8 4#8 0xFF#8).wellFormed = true ∧
    (Instr.romrd 31#5).wellFormed = true := by decide

theorem witness_IgnoredBitsTakeNoPart :
    (wordLen 0x16600000000#43 = wordLen 0x166FFFFFFFF#43 ∧
      ∀ k : Fin 5, k.val < (wordLen 0x16600000000#43).toNat →
        lane (wordData 0x16600000000#43) k = lane (wordData 0x166FFFFFFFF#43) k) ∧
    legalWord 0x10000000000#43 = true ∧ legalWord 0x5FFFFFFFFFF#43 = true := by decide

theorem witness_TableRowsSelectOperation : ∀ n : QLen,
    0x6666F6F6261#43 &&& 0x70000000000#43 ≠ BitVec.ofNat 43 (n.toNat * 2 ^ 40) := by
  intro n
  cases n <;> decide

theorem witness_StepRunsDecodedInstruction :
    ((demo [tx 0x17200000000#43]).romAddr = none ∧ (demo [tx 0x17200000000#43]).inp = tx 0x17200000000#43 :: [] ∧
      (tx 0x17200000000#43).inValid = true ∧
      decode (.transaction (mkWord (tx 0x17200000000#43).inLen (tx 0x17200000000#43).inData)) = .ok (.q1 0x72#8)) ∧
    ({ demo [] with romAddr := some 31#5 } : State).romAddr = some 31#5 := by decide

theorem witness_PlacedWordRunsNext :
    (decodeTableWord 48 0x17200000000 = some (.q1 0x72#8) ∧ (Instr.q1 0x72#8).issuable = true) ∧
    (decodeTableWord 8 31 = some (.romrd 31#5) ∧ (Instr.romrd 31#5).issuable = false) := by decide

/-- The lengths 1 and 5 at the ends of the legal range, a pause, and the reserved lengths beside them. -/
theorem witness_PortRelation :
    (∀ w : TxWord,
      (demo [tx w, pause]).romAddr = none ∧ (demo [tx w, pause]).inp = tx w :: [pause] ∧ (tx w).inValid = true) ∧
    (tx 0x1FF00000000#43).inLen.toNat = QLen.one.toNat ∧ (tx 0x5FF00000000#43).inLen.toNat = QLen.five.toNat ∧
    pause.inValid = false ∧ (demo [pause]).inp = pause :: [] ∧ (tx 0#43).inLen = 0#3 ∧ (tx 0x6FF00000000#43).inLen = 6#3 ∧
    (tx 0x7FF00000000#43).inLen = 7#3 :=
  ⟨fun _ => ⟨rfl, rfl, rfl⟩, by decide⟩

theorem witness_NothingPresentedNothingAppended :
    ((demo [pause, pause]).romAddr = none ∧ (demo [pause, pause]).pending = [] ∧ 0 < 3) ∧
    (demo []).romAddr = none ∧ (demo []).pending = [] := by decide

/-- Each side of the first clause is met, and the hypotheses of the second at each reserved length. -/
theorem witness_RefusedExactlyOnReservedLength :
    (∃ t, step (demo [tx 0x10000000000#43]) = .next t) ∧ refusalIn (step (demo [tx 0#43])) = some (.reservedLen 0#3) ∧
    (∀ w : TxWord, (demo [tx w]).romAddr = none ∧ (demo [tx w]).inp = tx w :: [] ∧ (tx w).inValid = true) ∧
    (tx 0#43).inLen = 0#3 ∧ (tx 0x60000000000#43).inLen = 6#3 ∧ (tx 0x70000000000#43).inLen = 7#3 :=
  ⟨⟨_, rfl⟩, by decide, fun _ => ⟨rfl, rfl, rfl⟩, by decide⟩

theorem witness_AppendStep :
    ((demo [tx 0x57200000000#43]).romAddr = none ∧ (demo [tx 0x57200000000#43]).inp = tx 0x57200000000#43 :: [] ∧
      (tx 0x57200000000#43).inValid = true ∧ (tx 0x57200000000#43).inLen.toNat = QLen.five.toNat) ∧
    ((demo [tx 0x67200000000#43]).romAddr = none ∧ (demo [tx 0x67200000000#43]).inp = tx 0x67200000000#43 :: [] ∧
      (tx 0x67200000000#43).inValid = true ∧ (tx 0x67200000000#43).inLen = 6#3) ∧
    ∃ t, step (demo [tx 0x57200000000#43]) = .next t :=
  ⟨by decide, by decide, ⟨_, rfl⟩⟩

theorem witness_BeatIndependentOfHistory :
    (demo [tx 0x16600000000#43]).romAddr = none ∧
    ({ demo [tx 0x166FFFFFFFF#43, pause] with out := [0x41#8], draws := 7 } : State).romAddr = none ∧
    (demo [tx 0x16600000000#43]).inp = tx 0x16600000000#43 :: [] ∧
    ({ demo [tx 0x166FFFFFFFF#43, pause] with out := [0x41#8], draws := 7 } : State).inp = tx 0x166FFFFFFFF#43 :: [pause] ∧
    (tx 0x16600000000#43).inValid = true ∧ legalLen (tx 0x16600000000#43).inLen = true ∧
    SameQuantum (tx 0x16600000000#43) (tx 0x166FFFFFFFF#43) :=
  ⟨rfl, rfl, rfl, rfl, rfl, by decide, ⟨rfl, by decide, by decide⟩⟩

theorem witness_QuintetsRegroupQuantumString : 8 * QLen.one.toNat ≤ 5 * (2 : Fin 8).val := by decide

theorem witness_QuintetsFromMaskedBytes :
    0x66#8 = mbyte .two 0x666FFFFFFF#40 0 ∧ 0x6F#8 = mbyte .two 0x666FFFFFFF#40 1 ∧ 0#8 = mbyte .two 0x666FFFFFFF#40 2 ∧
    0#8 = mbyte .two 0x666FFFFFFF#40 3 ∧ 0#8 = mbyte .two 0x666FFFFFFF#40 4 := by decide

theorem witness_DataFieldCount : (1 : Fin 8) ≤ 6 ∧ dataEn .four 6 = true := by decide

theorem witness_LastDataFieldZeroFilled :
    (0 : Fin 8).val + 1 < dataCount .one ∧ dataCount .one ≤ (2 : Fin 8).val ∧ dataCount .four ≤ (7 : Fin 8).val := by decide

theorem witness_QuintetsDetermineLiveBytes :
    (∀ i, quintet (quantumString .five 0x666F6F6261#40) i = quintet (quantumString .five 0x666F6F6261#40) i) ∧
    (∀ i : Fin 8, i.val < dataCount .one →
      quintet (quantumString .one 0x6600000000#40) i = quintet (quantumString .one 0x66FFFFFFFF#40) i) ∧
    (0 : Fin 5).val < QLen.one.toNat := by decide

theorem witness_RomContents : (25#5 : Quintet).toNat ≤ 25 ∧ 26 ≤ (26#5 : Quintet).toNat ∧ romRead 31#5 = romRead 31#5 := by
  decide

theorem witness_PadSelectByPosition :
    ((1 : Fin 8).val < dataCount .one ∧ quintet (quantumString .one 0#40) 1 = 0#5) ∧
    dataCount .one ≤ (2 : Fin 8).val := by decide

theorem witness_SymbolsOfBeat : (7 : Fin 8).val < dataCount .five := by decide

theorem witness_RomrdResult : (0 : Fin 8).val < dataCount .one ∧ quintet (quantumString .one 0xFF00000000#40) 0 = 31#5 := by
  decide

theorem witness_TransactionFrame :
    (Instr.q1 0x72#8).issuable = true ∧ (∃ t, exec (.q1 0x72#8) (demo []) = .next t) ∧ 0 < [0x41#8].length :=
  ⟨rfl, ⟨_, rfl⟩, by decide⟩

theorem witness_RomrdFrame : ∃ t, exec (.romrd 26#5) (demo []) = .next t := ⟨_, rfl⟩

theorem witness_RelationsBetweenTransactions :
    ((1 : Fin 8).val < dataCount .one ∧ dataCount .one ≤ (2 : Fin 8).val) ∧
    (QLen.four.toNat < QLen.five.toNat ∧ (5 : Fin 8).val + 1 < dataCount .four) ∧ QLen.one ≠ QLen.two := by decide

theorem witness_StepKeepsObservationSound :
    (demo [tx 0x17200000000#43]).Inv ∧ ∃ t, step (demo [tx 0x17200000000#43]) = .next t :=
  ⟨{ valid_iff := rfl, beat_out := nofun, taken := nofun, whole_beats := rfl, alphabet := nofun, rom_answer := nofun },
    ⟨_, rfl⟩⟩

theorem witness_RomPortNeverDriven : (∃ t, step (demo []) = .next t) ∧ (demo []).romAddr = none := ⟨⟨_, rfl⟩, rfl⟩

theorem witness_StreamGivesBeatsInOrder :
    (demo [pause, tx 0x2666F000000#43, tx 0x56F62617221#43]).romAddr = none ∧
    (demo [pause, tx 0x2666F000000#43, tx 0x56F62617221#43]).inp = [pause, tx 0x2666F000000#43, tx 0x56F62617221#43] ∧
    legalStream [pause, tx 0x2666F000000#43, tx 0x56F62617221#43] = true := by decide

/-- Program P6 of section 3, with its reserved word second, and alone with each reserved length. -/
theorem witness_ReservedWordRefusedForGood :
    (∀ w : TxWord, (demo [tx w]).romAddr = none ∧ (demo [tx w]).inp = tx w :: [] ∧ (tx w).inValid = true) ∧
    ((tx 0#43).inLen = 0#3 ∧ (tx 0x67200000000#43).inLen = 6#3 ∧ (tx 0x77200000000#43).inLen = 7#3) ∧
    tx 0x67200000000#43 ∈ (demo [tx 0x5666F6F6261#43, tx 0x67200000000#43]).inp ∧
    quantumAt [0x66#8] 0 ∈ partition [0x66#8] :=
  ⟨fun _ => ⟨rfl, rfl, rfl⟩, by decide⟩

theorem witness_PartitionShape :
    1 < ([1#8, 2#8, 3#8, 4#8, 5#8, 6#8].length + 4) / 5 ∧ 0 + 1 < ([1#8, 2#8, 3#8, 4#8, 5#8, 6#8].length + 4) / 5 ∧
    1 + 1 = ([1#8, 2#8, 3#8, 4#8, 5#8, 6#8].length + 4) / 5 := by decide

/-- A presentation of two bytes with a pause before it and its dead lanes all ones. -/
theorem witness_EveryPresentationEncodes : Presents [0x66#8, 0x6F#8] [pause, tx 0x2666FFFFFFF#43] :=
  .cons ⟨by decide, by decide, by decide⟩ .nil

theorem witness_RunTakesOneStepPerQuantum : 1 ≤ ([0x66#8].length + 4) / 5 ∧ 0 ≤ (([] : List Byte).length + 4) / 5 := by
  decide

theorem witness_PaddingIsFinalSuffix : (encodeBytes [0x66#8, 0x6F#8, 0x6F#8, 0x62#8])[7]? = some padCode ∧
    (encodeBytes [0x66#8])[2]? = some padCode := by decide

/-- The five residues, with the empty input and a full quantum for residue 0. -/
theorem witness_PaddingCount :
    ([] : List Byte).length % 5 = 0 ∧ [1#8, 2#8, 3#8, 4#8, 5#8].length % 5 = 0 ∧ [1#8].length % 5 = 1 ∧
    [1#8, 2#8].length % 5 = 2 ∧ [1#8, 2#8, 3#8].length % 5 = 3 ∧ [1#8, 2#8, 3#8, 4#8].length % 5 = 4 := by decide

theorem witness_ConcatenationLaw :
    [1#8, 2#8, 3#8, 4#8, 5#8].length % 5 = 0 ∧ [0x66#8].length % 5 ≠ 0 ∧ [0x6F#8] ≠ [] := by decide

theorem witness_OutputAlphabet : padCode ∈ encodeBytes [0x66#8] := by decide

theorem witness_DifferentInputsDifferentOutputs : encodeBytes [0x66#8] = encodeBytes [0x66#8] := rfl

/-- Program P5 of section 3. -/
theorem witness_MisalignedPresentation :
    legalStream [tx 0x2666F000000#43, tx 0x56F62617221#43] = true ∧
    [tx 0x2666F000000#43, tx 0x56F62617221#43].filter (fun x => x.inValid) =
      [] ++ tx 0x2666F000000#43 :: tx 0x56F62617221#43 :: [] ∧
    (tx 0x2666F000000#43).inLen.toNat < 5 := by decide

end Sys2Proof.Tests
end

section
/-! PROOFS, family `10_state.md`. What a step does on the entry at the head of `inp`, one equation per case of rule R19, and
the statements that follow from them. -/

namespace Sys2Proof.Machine

/-! ## Which lengths are legal -/

theorem lenOfBits_eq_some_iff_toNat (len : LenBits) (n : QLen) : lenOfBits len = some n ↔ len.toNat = n.toNat := by
  revert len
  cases n <;> decide

theorem lenOfBits_eq_none_iff_reserved (len : LenBits) :
    lenOfBits len = none ↔ len = 0#3 ∨ len = 6#3 ∨ len = 7#3 := by
  revert len
  decide

theorem exists_lenOfBits_of_legalLen {len : LenBits} (h : legalLen len = true) : ∃ n, lenOfBits len = some n :=
  Option.ne_none_iff_exists'.mp (by simp [lenOfBits_eq_none_iff, h])

/-! ## One evaluation -/

theorem evaluate_of_legal {p : InPorts} {n : QLen} (s : State) (hv : p.inValid = true) (hn : lenOfBits p.inLen = some n) :
    evaluate p s = .run (quantumInstr n p.inData) s := by
  simp [evaluate, decode, decodeWord, portWord, hv, hn]

theorem evaluate_of_pause {p : InPorts} (s : State) (hv : p.inValid = false) : evaluate p s = .idle (noBeat s) := by
  simp [evaluate, hv]

theorem evaluate_of_reserved {p : InPorts} (s : State) (hv : p.inValid = true) (hn : lenOfBits p.inLen = none) :
    evaluate p s = .refuse (.reservedLen p.inLen) := by
  simp [evaluate, decode, decodeWord, portWord, refusalOf, hv, hn]

/-! ## One step on the entry at the head of `inp` -/

section Presented

variable {s : State} {p : InPorts} {rest : List InPorts}

theorem fetch_cons (hrom : s.romAddr = none) (hinp : s.inp = p :: rest) :
    fetch s = evaluate p (present p rest s) := by
  simp [fetch, hrom, hinp]

theorem step_of_legal {n : QLen} (hrom : s.romAddr = none) (hinp : s.inp = p :: rest) (hv : p.inValid = true)
    (hn : lenOfBits p.inLen = some n) : step s = .next (deliver (beat n p.inData) (present p rest s)) := by
  simp [step, fetch_cons hrom hinp, evaluate_of_legal _ hv hn, exec_quantumInstr]

theorem step_of_pause (hrom : s.romAddr = none) (hinp : s.inp = p :: rest) (hv : p.inValid = false) :
    step s = .next (noBeat (present p rest s)) := by
  simp [step, fetch_cons hrom hinp, evaluate_of_pause _ hv]

theorem step_of_reserved (hrom : s.romAddr = none) (hinp : s.inp = p :: rest) (hv : p.inValid = true)
    (hn : lenOfBits p.inLen = none) : step s = .refused (.reservedLen p.inLen) := by
  simp [step, fetch_cons hrom hinp, evaluate_of_reserved _ hv hn]

end Presented

/-! ## Same quanta -/

/-- Entries that present the same quantum have the same beat: no dead lane takes part in it. -/
theorem SameQuantum.beat_eq {p q : InPorts} {n : QLen} (h : SameQuantum p q) (hn : lenOfBits p.inLen = some n) :
    beat n p.inData = beat n q.inData := by
  obtain ⟨-, -, hlanes⟩ := h
  have hlen : p.inLen.toNat = n.toNat := (lenOfBits_eq_some_iff_toNat _ _).mp hn
  exact beat_congr n _ _ fun k hk => hlanes k (hlen ▸ hk)

/-! ## The statements -/

/-- Settles O7: each case of rule R19 is the equation of a step in that case, and the fields are read off its state. -/
theorem portRelation : Obligations.PortRelation := by
  intro s p rest hrom hinp
  refine ⟨fun n hv hlen => ?_, fun hv => ?_, fun hv hres => ?_⟩
  · have hn : lenOfBits p.inLen = some n := (lenOfBits_eq_some_iff_toNat _ _).mpr hlen
    exact ⟨_, step_of_legal hrom hinp hv hn, rfl, rfl, rfl, rfl⟩
  · exact ⟨_, step_of_pause hrom hinp hv, rfl, rfl, rfl, rfl⟩
  · exact step_of_reserved hrom hinp hv ((lenOfBits_eq_none_iff_reserved _).mpr hres)

/-- Settles O11: both steps deliver the beat of their own lanes, and the two beats are one because the quanta are the
same. -/
theorem beatIndependentOfHistory : Obligations.BeatIndependentOfHistory := by
  intro s s' p p' rest rest' hrom hrom' hinp hinp' hv hlegal hsame
  obtain ⟨n, hn⟩ := exists_lenOfBits_of_legalLen hlegal
  have hbeat : beat n p.inData = beat n p'.inData := hsame.beat_eq hn
  obtain ⟨hvalid, hlen, -⟩ := hsame
  have hstep' : step s' = .next (deliver (beat n p.inData) (present p' rest' s')) :=
    hbeat ▸ step_of_legal hrom' hinp' (hvalid ▸ hv) (hlen ▸ hn)
  exact ⟨_, _, beat n p.inData, step_of_legal hrom hinp hv hn, hstep', rfl, rfl, rfl, rfl⟩

end Sys2Proof.Machine
end

section
/-! PROOFS, family `20_memory.md`. The run over a stream of legal transactions, the bytes of a beat one by one, the quanta
of a partition, and the statements on the order of `OUT` and on a misaligned presentation. -/

namespace Sys2Proof.Machine

/-! ## A run, one step at a time -/

theorem after_succ_of_step {s t : State} (k : Nat) (h : step s = .next t) :
    Run.after (k + 1) { state := s, refusal := none } = Run.after k { state := t, refusal := none } := by
  simp [Run.after, Run.advance, h]

/-! ## Legal streams -/

theorem legalStream_cons (p : InPorts) (rest : List InPorts) :
    legalStream (p :: rest) = true ↔ (p.inValid = true → legalLen p.inLen = true) ∧ legalStream rest = true := by
  cases hv : p.inValid <;> simp [legalStream, hv]

theorem exists_lenOfBits_of_mem_filter {l : List InPorts} {p : InPorts} (hl : legalStream l = true)
    (hp : p ∈ l.filter (fun x => x.inValid)) : ∃ n, lenOfBits p.inLen = some n := by
  obtain ⟨hmem, hv⟩ := List.mem_filter.mp hp
  exact exists_lenOfBits_of_legalLen (by simpa [hv] using List.all_eq_true.mp hl p hmem)

theorem beatBytes_of_lenOfBits {p : InPorts} {n : QLen} (hn : lenOfBits p.inLen = some n) :
    beatBytes p = serialise (beat n p.inData) := by
  simp [beatBytes, hn]

/-- A step on the head of a legal stream takes it off `inp` and appends its beat, or nothing for a pause. -/
theorem step_of_legalStream {s : State} {p : InPorts} {rest : List InPorts} (hrom : s.romAddr = none)
    (hinp : s.inp = p :: rest) (hl : legalStream (p :: rest) = true) :
    ∃ t, step s = .next t ∧ t.romAddr = none ∧ t.inp = rest ∧
      t.out = s.out ++ if p.inValid then beatBytes p else [] := by
  obtain ⟨hlegal, -⟩ := (legalStream_cons p rest).mp hl
  cases hv : p.inValid with
  | false => exact ⟨_, step_of_pause hrom hinp hv, hrom, rfl, by simp⟩
  | true =>
    obtain ⟨n, hn⟩ := exists_lenOfBits_of_legalLen (hlegal hv)
    exact ⟨_, step_of_legal hrom hinp hv hn, hrom, rfl, by simp [beatBytes_of_lenOfBits hn]⟩

/-- Settles O35, by induction on the stream: each step appends the beat of its entry and leaves the rest to drive. -/
theorem streamGivesBeatsInOrder : Obligations.StreamGivesBeatsInOrder := by
  intro s l
  induction l generalizing s with
  | nil => exact fun _ hinp _ => ⟨s, rfl, by simp, by simp [State.pending, hinp]⟩
  | cons p rest ih =>
    intro hrom hinp hl
    obtain ⟨-, hrest⟩ := (legalStream_cons p rest).mp hl
    obtain ⟨t, hstep, htrom, htinp, htout⟩ := step_of_legalStream hrom hinp hl
    obtain ⟨u, hafter, huout, hpending⟩ := ih t htrom htinp hrest
    refine ⟨u, (after_succ_of_step rest.length hstep).trans hafter, ?_, hpending⟩
    rw [huout, htout]
    cases hv : p.inValid <;> simp [hv]

/-- A run from the start over a legal stream is over when every entry has been driven, and `OUT` is its beats. -/
theorem launch_of_legalStream {l : List InPorts} (hl : legalStream l = true) :
    (Run.after l.length (launch l)).over = true ∧
      (Run.after l.length (launch l)).state.out = (l.filter (fun p => p.inValid)).flatMap beatBytes := by
  obtain ⟨t, hafter, hout, hpending⟩ := streamGivesBeatsInOrder { State.reset with inp := l } l rfl rfl hl
  rw [launch, hafter]
  exact ⟨by simp [Run.over, hpending], by simpa [State.reset] using hout⟩

/-! ## The bytes of a beat -/

theorem beatByte_cat8 (sym : Fin 8 → Byte) (i : Fin 8) : beatByte (cat8 sym) i = sym i := by
  fin_cases i <;>
  · simp (disch := omega) only [beatByte, cat8, BitVec.extractLsb'_append_eq_of_le,
      BitVec.extractLsb'_append_eq_of_add_le]
    exact BitVec.extractLsb'_eq_self

theorem serialise_beat (n : QLen) (data : Data) : serialise (beat n data) = List.ofFn (symbol n data) := by
  simp [serialise, beat, beatByte_cat8, List.ofFn_succ]

theorem romRead_ne_padCode (a : Quintet) : romRead a ≠ padCode := by
  revert a
  decide

/-- A field with data in it is never `=`, one without is always `=`. -/
theorem symbol_eq_padCode_iff (n : QLen) (data : Data) (i : Fin 8) :
    symbol n data i = padCode ↔ dataCount n ≤ i.val := by
  by_cases h : i.val < dataCount n
  · simp [symbol, symSel, dataEn, h, romRead_ne_padCode]
  · simp [symbol, symSel, dataEn, h, Nat.le_of_not_lt h]

theorem padCode_notMem_beat_five (data : Data) : padCode ∉ serialise (beat .five data) := by
  rw [serialise_beat, List.mem_ofFn]
  rintro ⟨i, hi⟩
  have hpad : dataCount .five ≤ i.val := (symbol_eq_padCode_iff _ _ _).mp hi
  have hcount : dataCount .five = 8 := rfl
  omega

/-- The last symbol of a partial quantum is `=`. -/
theorem serialise_beat_getElem?_seven {n : QLen} (data : Data) (h : n.toNat < 5) :
    (serialise (beat n data))[7]? = some padCode := by
  have hcount : dataCount n ≤ (7 : Fin 8).val := by simp only [dataCount, Fin.coe_ofNat_eq_mod]; omega
  simpa [serialise_beat] using (symbol_eq_padCode_iff n data 7).mpr hcount

/-! ## The quanta of a partition -/

theorem quantumAt_inLen_toNat (bytes : List Byte) (j : Nat) :
    (quantumAt bytes j).inLen.toNat = min 5 (bytes.length - 5 * j) := by
  simp only [quantumAt, BitVec.toNat_ofNat]
  omega

theorem legalStream_partition (bytes : List Byte) : legalStream (partition bytes) = true := by
  simp only [legalStream, partition, List.all_map, List.all_eq_true, List.mem_range, quantumCount]
  intro j hj
  simp only [Function.comp_apply, legalLen, quantumAt_inLen_toNat, Bool.or_eq_true, Bool.and_eq_true, decide_eq_true_eq]
  omega

theorem filter_partition (bytes : List Byte) : (partition bytes).filter (fun p => p.inValid) = partition bytes := by
  simp [partition, quantumAt]

theorem length_partition (bytes : List Byte) : (partition bytes).length = quantumCount bytes.length := by
  simp [partition]

/-- `encode(B)`, which is read off a run, is the beats of the partition. -/
theorem encodeBytes_eq_flatMap_beatBytes (bytes : List Byte) :
    encodeBytes bytes = (partition bytes).flatMap beatBytes := by
  have hout := (launch_of_legalStream (legalStream_partition bytes)).2
  rwa [length_partition, filter_partition] at hout

theorem lenOfBits_quantumAt_of_full {bytes : List Byte} {j : Nat} (h : j + 1 < quantumCount bytes.length) :
    lenOfBits (quantumAt bytes j).inLen = some .five := by
  rw [lenOfBits_eq_some_iff_toNat, quantumAt_inLen_toNat]
  simp only [quantumCount, QLen.toNat] at *
  omega

theorem length_beatBytes_le (p : InPorts) : (beatBytes p).length ≤ 8 := by
  cases hn : lenOfBits p.inLen with
  | none => simp [beatBytes, hn]
  | some n => simp [beatBytes_of_lenOfBits hn]

/-- An `=` in `encode(B)` is in its last group of eight, since every quantum but the last is full. -/
theorem length_encodeBytes_le_of_padCode {bytes : List Byte} {i : Nat}
    (hi : (encodeBytes bytes)[i]? = some padCode) : (encodeBytes bytes).length ≤ i + 8 := by
  rw [encodeBytes_eq_flatMap_beatBytes] at hi ⊢
  cases hT : quantumCount bytes.length with
  | zero => simp [partition, hT]
  | succ m =>
    have hsplit : partition bytes = (List.range m).map (quantumAt bytes) ++ [quantumAt bytes m] := by
      simp [partition, hT, List.range_succ]
    have hfull : padCode ∉ ((List.range m).map (quantumAt bytes)).flatMap beatBytes := by
      simp only [List.mem_flatMap, List.mem_map, List.mem_range]
      rintro ⟨-, ⟨j, hj, rfl⟩, hmem⟩
      rw [beatBytes_of_lenOfBits (lenOfBits_quantumAt_of_full (by omega))] at hmem
      exact padCode_notMem_beat_five _ hmem
    have hlast := length_beatBytes_le (quantumAt bytes m)
    simp only [hsplit, List.flatMap_append, List.flatMap_singleton, List.length_append] at hi ⊢
    have hpast : (((List.range m).map (quantumAt bytes)).flatMap beatBytes).length ≤ i := by
      by_contra hlt
      rw [List.getElem?_append_left (by omega)] at hi
      exact hfull (List.mem_of_getElem? hi)
    omega

/-- A partial quantum before another one puts an `=` in a group of eight that is not the last. -/
theorem exists_padCode_before_last_group (before after : List InPorts) {p q : InPorts} {m n : QLen}
    (hm : lenOfBits p.inLen = some m) (hn : lenOfBits q.inLen = some n) (hpart : m.toNat < 5) :
    ∃ i, ((before ++ p :: q :: after).flatMap beatBytes)[i]? = some padCode ∧
      i + 8 < ((before ++ p :: q :: after).flatMap beatBytes).length := by
  refine ⟨(before.flatMap beatBytes).length + 7, ?_, ?_⟩
  · simp only [List.flatMap_append, List.flatMap_cons, beatBytes_of_lenOfBits hm]
    rw [List.getElem?_append_right (by omega), Nat.add_sub_cancel_left, List.getElem?_append_left (by simp)]
    exact serialise_beat_getElem?_seven _ hpart
  · simp only [List.flatMap_append, List.flatMap_cons, List.length_append, beatBytes_of_lenOfBits hm,
      beatBytes_of_lenOfBits hn, length_serialise]
    omega

/-- Settles O49: the stream is run like any other, so `OUT` has an `=` before its last group, and no `encode(B)` has. -/
theorem misalignedPresentation : Obligations.MisalignedPresentation := by
  intro l before after p q hl hfilter hpart
  obtain ⟨hover, hout⟩ := launch_of_legalStream hl
  obtain ⟨m, hm⟩ := exists_lenOfBits_of_mem_filter (p := p) hl (by simp [hfilter])
  obtain ⟨n, hn⟩ := exists_lenOfBits_of_mem_filter (p := q) hl (by simp [hfilter])
  have hlen : p.inLen.toNat = m.toNat := (lenOfBits_eq_some_iff_toNat _ _).mp hm
  obtain ⟨i, hi, hlt⟩ := exists_padCode_before_last_group before after hm hn (hlen ▸ hpart)
  rw [hfilter] at hout
  rw [hout]
  refine ⟨hover, rfl, ⟨i, hi, hlt⟩, fun heq => ?_⟩
  rw [heq] at hi hlt
  exact absurd (length_encodeBytes_le_of_padCode hi) (by omega)

end Sys2Proof.Machine
end

section
/-! PROOFS, family `30_encoding.md`. The canonical word of an operation, the refusal a run keeps, the partition five
bytes at a time, and the statements on ignored bits, reserved words and the expansion of `ENCODE`. -/

namespace Sys2Proof.Machine

/-! ## Live lanes and the canonical word -/

theorem lane_packLanes_apply (f : Fin 5 → Byte) (k : Fin 5) :
    lane (packLanes (f 0) (f 1) (f 2) (f 3) (f 4)) k = f k := by
  obtain ⟨h0, h1, h2, h3, h4⟩ := lane_packLanes (f 0) (f 1) (f 2) (f 3) (f 4)
  fin_cases k
  exacts [h0, h1, h2, h3, h4]

theorem lane_quantumString (n : QLen) (data : Data) (k : Fin 5) : lane (quantumString n data) k = mbyte n data k :=
  lane_packLanes_apply (mbyte n data) k

/-- The canonical word of an operation carries its masked lanes. -/
theorem encode_quantumInstr (n : QLen) (data : Data) :
    encode (quantumInstr n data) = .transaction (mkWord n.toBits (quantumString n data)) := by
  cases n <;> rfl

/-- Masking the dead lanes leaves the operation and its operands as they are. -/
theorem quantumInstr_quantumString (n : QLen) (data : Data) :
    quantumInstr n (quantumString n data) = quantumInstr n data := by
  cases n <;>
  · simp only [quantumInstr, lane_quantumString]
    rfl

theorem quantumInstr_congr (n : QLen) (data data' : Data)
    (h : ∀ k : Fin 5, k.val < n.toNat → lane data k = lane data' k) : quantumInstr n data = quantumInstr n data' := by
  rw [← quantumInstr_quantumString n data, quantumString_congr n data data' h, quantumInstr_quantumString]

/-- The bits of the dead lanes are 0 in the quantum string. -/
theorem getLsbD_quantumString_of_dead (n : QLen) (data : Data) {j : Nat} (h : j < 40 - 8 * n.toNat) :
    (quantumString n data).getLsbD j = false := by
  have hdead (k : Fin 5) (i : Nat) (hk : n.toNat ≤ k.val) : (mbyte n data k).getLsbD i = false := by
    simp [mbyte_dead n data k hk]
  have hbits := getLsbD_packLanes (mbyte n data 0) (mbyte n data 1) (mbyte n data 2) (mbyte n data 3) (mbyte n data 4) j
  refine hbits.trans ?_
  split_ifs <;> exact hdead _ _ (by simp; omega)

theorem decode_of_lenOfBits {tw : TxWord} {n : QLen} (hn : lenOfBits (wordLen tw) = some n) :
    decode (.transaction tw) = .ok (quantumInstr n (wordData tw)) := by
  simp [decode, decodeWord, hn]

theorem decode_of_reserved {tw : TxWord} (hn : lenOfBits (wordLen tw) = none) :
    decode (.transaction tw) = .error (.reservedLen (wordLen tw)) := by
  simp [decode, decodeWord, hn]

/-- Words with one length and the same live lanes decode alike. -/
theorem decode_congr {tw tw' : TxWord} (hlen : wordLen tw = wordLen tw')
    (hlanes : ∀ k : Fin 5, k.val < (wordLen tw).toNat → lane (wordData tw) k = lane (wordData tw') k) :
    decode (.transaction tw) = decode (.transaction tw') := by
  cases hn : lenOfBits (wordLen tw) with
  | none => rw [decode_of_reserved hn, decode_of_reserved (hlen ▸ hn), hlen]
  | some n =>
    have hnat : (wordLen tw).toNat = n.toNat := (lenOfBits_eq_some_iff_toNat _ _).mp hn
    rw [decode_of_lenOfBits hn, decode_of_lenOfBits (hlen ▸ hn),
      quantumInstr_congr n _ _ fun k hk => hlanes k (hnat ▸ hk)]

theorem legalLen_toBits (n : QLen) : legalLen n.toBits = true := by cases n <;> rfl

theorem toNat_toBits (n : QLen) : n.toBits.toNat = n.toNat := by cases n <;> rfl

/-- A word that carries a quantum string is canonical: its ignored bits are the dead lanes. -/
theorem canonicalWord_mkWord_quantumString (n : QLen) (data : Data) :
    canonicalWord (mkWord n.toBits (quantumString n data)) = true := by
  have hfield : (mkWord n.toBits (quantumString n data)).extractLsb' 40 3 = n.toBits := wordLen_mkWord _ _
  have hlow : (mkWord n.toBits (quantumString n data)).setWidth (40 - 8 * n.toNat) = 0#_ := by
    refine BitVec.eq_of_getLsbD_eq fun j hj => ?_
    have hj40 : j < 40 := by omega
    rw [BitVec.getLsbD_setWidth, getLsbD_mkWord, if_pos hj40, getLsbD_quantumString_of_dead n data hj, Bool.and_false,
      BitVec.getLsbD_zero]
  have hmod : (mkWord n.toBits (quantumString n data)).toNat % 2 ^ (40 - 8 * n.toNat) = 0 := by
    rw [← BitVec.toNat_setWidth, hlow, BitVec.toNat_zero]
  simp [canonicalWord, legalWord, hfield, legalLen_toBits, toNat_toBits, hmod]

/-- Settles O2: a word decodes by its length and live lanes alone, and the word that carries its masked lanes
has both. -/
theorem ignoredBitsTakeNoPart : Obligations.IgnoredBitsTakeNoPart := by
  refine ⟨fun _ _ => decode_congr, fun tw hlegal => ?_⟩
  obtain ⟨n, hn⟩ := exists_lenOfBits_of_legalLen (len := wordLen tw) hlegal
  have hlen : wordLen tw = n.toBits := (lenOfBits_eq_some_iff _ _).mp hn
  have hnat : (wordLen tw).toNat = n.toNat := (lenOfBits_eq_some_iff_toNat _ _).mp hn
  have hlanes (k : Fin 5) (hk : k.val < (wordLen tw).toNat) :
      lane (quantumString n (wordData tw)) k = lane (wordData tw) k := by
    rw [lane_quantumString, mbyte_live _ _ _ (hnat ▸ hk)]
  have hcanon : decode (.transaction (mkWord n.toBits (quantumString n (wordData tw)))) = decode (.transaction tw) :=
    decode_congr (by simp [hlen]) (by simpa [hlen] using hlanes)
  exact ⟨_, _, decode_of_lenOfBits hn, encode_quantumInstr _ _, canonicalWord_mkWord_quantumString _ _, by simp [hlen],
    hcanon.trans (decode_of_lenOfBits hn), by simpa using hlanes⟩

/-! ## What a run keeps -/

theorem advance_of_refused {s : State} {x : Refusal} (h : step s = .refused x) :
    Run.advance { state := s, refusal := none } = { state := s, refusal := some x } := by
  simp [Run.advance, h]

theorem advance_of_next {s t : State} (h : step s = .next t) :
    Run.advance { state := s, refusal := none } = { state := t, refusal := none } :=
  after_succ_of_step 0 h

/-- What every advance keeps, a run of any number of steps keeps. -/
theorem after_induction {P : Run → Prop} (hadvance : ∀ r, P r → P r.advance) (k : Nat) {r : Run} (h : P r) :
    P (Run.after k r) := by
  induction k generalizing r with
  | zero => exact h
  | succ k ih => exact ih (hadvance r h)

theorem after_of_refusal (s : State) (x : Refusal) (k : Nat) :
    Run.after k { state := s, refusal := some x } = { state := s, refusal := some x } :=
  after_induction (P := (· = { state := s, refusal := some x })) (by rintro _ rfl; rfl) k rfl

/-- A presented word with a reserved length (rule R52). -/
def InPorts.Reserved (p : InPorts) : Prop := p.inValid = true ∧ lenOfBits p.inLen = none

/-- A refusal is recorded, or a reserved word is still to be driven. -/
def Run.Blocked (r : Run) : Prop := r.refusal ≠ none ∨ ∃ p ∈ r.state.inp, p.Reserved

/-- A step does not get past a reserved word: it only drives other entries, and on the word itself it is refused. -/
theorem mem_inp_of_step {s t : State} {p : InPorts} (hstep : step s = .next t) (hp : p ∈ s.inp) (hres : p.Reserved) :
    p ∈ t.inp := by
  obtain ⟨hv, hn⟩ := hres
  rcases step_cases s with ⟨a, -, h⟩ | ⟨-, hinp, -⟩ | ⟨q, rest, -, hinp, hq, h⟩ | ⟨q, rest, n, -, hinp, -, hq, h⟩ |
    ⟨q, rest, -, -, -, -, h⟩
  · cases hstep.symm.trans h
    exact hp
  · simp [hinp] at hp
  · cases hstep.symm.trans h
    have hne : p ≠ q := by rintro rfl; simp [hv] at hq
    simpa [hinp, hne] using hp
  · cases hstep.symm.trans h
    have hne : p ≠ q := by rintro rfl; simp [hn] at hq
    simpa [hinp, hne] using hp
  · cases hstep.symm.trans h

theorem Run.Blocked.advance {r : Run} (h : r.Blocked) : r.advance.Blocked := by
  obtain ⟨s, refusal⟩ := r
  cases refusal with
  | some x => exact h
  | none =>
    obtain ⟨p, hp, hres⟩ := h.resolve_left (by simp)
    cases hstep : step s with
    | next t =>
      rw [advance_of_next hstep]
      exact .inr ⟨p, mem_inp_of_step hstep hp hres, hres⟩
    | refused x =>
      rw [advance_of_refused hstep]
      exact .inl (Option.some_ne_none x)
    | fault f => cases f

theorem Run.Blocked.over_eq_false {r : Run} (h : r.Blocked) : r.over = false := by
  rcases h with href | ⟨p, hp, hv, -⟩
  · simp [Run.over, href]
  · have hpending : r.state.pending ≠ [] := List.ne_nil_of_mem (List.mem_filter.mpr ⟨hp, hv⟩)
    simp [Run.over, hpending]

/-- Settles O36: a step on a reserved word is refused, a run keeps its refusal and cannot get past such a word, and
every quantum of a partition has a legal length. -/
theorem reservedWordRefusedForGood : Obligations.ReservedWordRefusedForGood := by
  simp only [Obligations.ReservedWordRefusedForGood, ← lenOfBits_eq_none_iff_reserved]
  refine ⟨fun s p rest k hrom hinp hv hn => ?_, fun s p k hp hv hn => ?_, fun bytes p hp hn => ?_⟩
  · have hstep : step s = .refused (.reservedLen p.inLen) := step_of_reserved hrom hinp hv hn
    exact ⟨hstep, by rw [Run.after, advance_of_refused hstep, after_of_refusal]⟩
  · exact (after_induction (P := Run.Blocked) (fun _ => Run.Blocked.advance) k (.inr ⟨p, hp, hv, hn⟩)).over_eq_false
  · obtain ⟨n, hsome⟩ := exists_lenOfBits_of_mem_filter (legalStream_partition bytes)
      ((filter_partition bytes).symm ▸ hp)
    simp [hsome] at hn

/-! ## The expansion of `ENCODE` -/

theorem quantumAt_cons_five (b0 b1 b2 b3 b4 : Byte) (rest : List Byte) (j : Nat) :
    quantumAt (b0 :: b1 :: b2 :: b3 :: b4 :: rest) (j + 1) = quantumAt rest j := by
  have hlen : rest.length + 1 + 1 + 1 + 1 + 1 - 5 * (j + 1) = rest.length - 5 * j := by omega
  simp only [quantumAt, List.length_cons, hlen]
  rfl

/-- The partition cuts off the first five bytes as a full quantum. -/
theorem partition_cons_five (b0 b1 b2 b3 b4 : Byte) (rest : List Byte) :
    partition (b0 :: b1 :: b2 :: b3 :: b4 :: rest) =
      { inValid := true, inLen := 5#3, inData := packLanes b0 b1 b2 b3 b4 } :: partition rest := by
  have hcount : quantumCount (b0 :: b1 :: b2 :: b3 :: b4 :: rest).length = quantumCount rest.length + 1 := by
    simp only [quantumCount, List.length_cons]; omega
  have hhead : quantumAt (b0 :: b1 :: b2 :: b3 :: b4 :: rest) 0 =
      { inValid := true, inLen := 5#3, inData := packLanes b0 b1 b2 b3 b4 } := by
    simp [quantumAt]
  rw [partition, hcount, List.range_succ_eq_map, List.map_cons, hhead, List.map_map]
  exact congrArg _ (List.map_congr_left fun j _ => quantumAt_cons_five b0 b1 b2 b3 b4 rest j)

theorem map_encode_expandEncode (bytes : List Byte) :
    (expandEncode bytes).map encode = (partition bytes).map (fun p => .transaction (mkWord p.inLen p.inData)) := by
  fun_induction expandEncode bytes with
  | case6 b0 b1 b2 b3 b4 rest ih => simp only [partition_cons_five, List.map_cons, ih, encode]
  | _ => simp [partition, quantumCount, quantumAt, encode, List.range_succ]

theorem length_expandEncode (bytes : List Byte) : (expandEncode bytes).length = quantumCount bytes.length := by
  simpa [length_partition] using congrArg List.length (map_encode_expandEncode bytes)

theorem length_cons_five_div (b0 b1 b2 b3 b4 : Byte) (rest : List Byte) :
    (b0 :: b1 :: b2 :: b3 :: b4 :: rest).length / 5 = rest.length / 5 + 1 := by
  simp only [List.length_cons]; omega

theorem all_isFull_take_expandEncode (bytes : List Byte) :
    ((expandEncode bytes).take (bytes.length / 5)).all Instr.isFull = true := by
  fun_induction expandEncode bytes with
  | case6 b0 b1 b2 b3 b4 rest ih => rw [length_cons_five_div, List.take_succ_cons, List.all_cons, ih]; rfl
  | _ => simp

theorem all_not_isFull_drop_expandEncode (bytes : List Byte) :
    ((expandEncode bytes).drop (bytes.length / 5)).all (fun i => !i.isFull) = true := by
  fun_induction expandEncode bytes with
  | case6 b0 b1 b2 b3 b4 rest ih => rw [length_cons_five_div, List.drop_succ_cons, ih]
  | _ => simp [Instr.isFull]

/-- A full quantum may stand in front of any program. -/
theorem wellFormedProgram_cons_q5 (b0 b1 b2 b3 b4 : Byte) (l : List Instr) :
    wellFormedProgram (.q5 b0 b1 b2 b3 b4 :: l) = wellFormedProgram l := by
  cases l <;> rfl

theorem wellFormedProgram_expandEncode (bytes : List Byte) : wellFormedProgram (expandEncode bytes) = true := by
  fun_induction expandEncode bytes with
  | case6 b0 b1 b2 b3 b4 rest ih => rw [wellFormedProgram_cons_q5, ih]
  | _ => rfl

/-- Settles O38: each part is an induction on the bytes, five at a time, with the fewer than five that are left as the
base cases; the number of instructions is read off the words. -/
theorem encodeExpansion : Obligations.EncodeExpansion := fun bytes =>
  ⟨map_encode_expandEncode bytes, length_expandEncode bytes, all_isFull_take_expandEncode bytes,
    all_not_isFull_drop_expandEncode bytes, wellFormedProgram_expandEncode bytes⟩

end Sys2Proof.Machine
end

section
/-! PROOFS, family `40_splitter.md`. Which fields hold data, the quantum string as a number and bit by bit, its quintets
as digits and as slices of the lanes, and the statements on the splitter. -/

namespace Sys2Proof.Machine

/-! ## The data-bearing fields -/

theorem lt_dataCount_iff (n : QLen) (i : Nat) : i < dataCount n ↔ 5 * i < 8 * n.toNat := by
  simp only [dataCount]
  omega

theorem dataCount_le_iff (n : QLen) (i : Nat) : dataCount n ≤ i ↔ 8 * n.toNat ≤ 5 * i := by
  rw [← Nat.not_lt, lt_dataCount_iff, Nat.not_lt]

theorem dataEn_eq_true_iff (n : QLen) (i : Fin 8) : dataEn n i = true ↔ i.val < dataCount n :=
  decide_eq_true_iff

/-- Settles O15: `i < d` is `5i < 8n`, and an index below a data-bearing one is below `d` too. -/
theorem dataFieldCount : Obligations.DataFieldCount := by
  refine ⟨by decide, fun n => ?_, fun n i => ?_, fun n i j hij hj => ?_⟩
  · simp only [dataCount]; omega
  · exact ⟨dataEn_eq_true_iff n i, (dataEn_eq_true_iff n i).trans (lt_dataCount_iff n i)⟩
  · exact (dataEn_eq_true_iff n i).mpr (Nat.lt_of_le_of_lt hij ((dataEn_eq_true_iff n j).mp hj))

/-! ## Slices and concatenations as numbers -/

theorem toNat_append_eq_add {m k : Nat} (x : BitVec m) (y : BitVec k) :
    (x ++ y).toNat = x.toNat * 2 ^ k + y.toNat := by
  rw [BitVec.toNat_append, ← Nat.shiftLeft_add_eq_or_of_lt y.isLt, Nat.shiftLeft_eq]

theorem toNat_extractLsb'_eq_div_mod {m : Nat} (x : BitVec m) (start len : Nat) :
    (x.extractLsb' start len).toNat = x.toNat / 2 ^ start % 2 ^ len := by
  rw [BitVec.extractLsb'_toNat, Nat.shiftRight_eq_div_pow]

theorem toNat_packLanes (b0 b1 b2 b3 b4 : Byte) :
    (packLanes b0 b1 b2 b3 b4).toNat =
      b0.toNat * 2 ^ 32 + b1.toNat * 2 ^ 24 + b2.toNat * 2 ^ 16 + b3.toNat * 2 ^ 8 + b4.toNat := by
  simp only [packLanes, toNat_append_eq_add]
  omega

/-! ## The quantum string -/

theorem quantumString_eq_packLanes (n : QLen) (data : Data) :
    quantumString n data =
      packLanes (mbyte n data 0) (mbyte n data 1) (mbyte n data 2) (mbyte n data 3) (mbyte n data 4) := rfl

/-- Bit `j` lies in lane `4 - j / 8`, at place `j % 8` (rule R25). -/
theorem getLsbD_eq_lane (data : Data) {j : Nat} (hj : j < 40) :
    data.getLsbD j = (lane data ⟨4 - j / 8, by omega⟩).getLsbD (j % 8) := by
  have hplace : 32 - 8 * (4 - j / 8) + j % 8 = j := by omega
  rw [getLsbD_lane, hplace, decide_eq_true (Nat.mod_lt j (by decide)), Bool.true_and]

/-- The bits of the live lanes stand in the quantum string as in the input. -/
theorem getLsbD_quantumString_of_live (n : QLen) (data : Data) {j : Nat} (hlive : 40 - 8 * n.toNat ≤ j) :
    (quantumString n data).getLsbD j = data.getLsbD j := by
  by_cases hj : j < 40
  · rw [getLsbD_eq_lane _ hj, getLsbD_eq_lane data hj, lane_quantumString, mbyte_live n data _ (by simp only; omega)]
  · rw [BitVec.getLsbD_of_ge _ _ (by omega), BitVec.getLsbD_of_ge _ _ (by omega)]

/-- The mask clears the low `40 - 8n` bits and nothing else (rules R59, R60). -/
theorem quantumString_eq_shift (n : QLen) (data : Data) :
    quantumString n data = (data >>> (40 - 8 * n.toNat)) <<< (40 - 8 * n.toNat) := by
  refine BitVec.eq_of_getLsbD_eq fun j hj => ?_
  rw [BitVec.getLsbD_shiftLeft, BitVec.getLsbD_ushiftRight]
  by_cases hdead : j < 40 - 8 * n.toNat
  · simp [getLsbD_quantumString_of_dead n data hdead, hdead]
  · have hback : 40 - 8 * n.toNat + (j - (40 - 8 * n.toNat)) = j := by omega
    rw [getLsbD_quantumString_of_live n data (Nat.not_lt.mp hdead), hback]
    simp [hj, hdead]

theorem quantumString_five (data : Data) : quantumString .five data = data := by
  simp [quantumString_eq_shift, QLen.toNat]

theorem toNat_mbyte (n : QLen) (data : Data) (k : Fin 5) :
    (mbyte n data k).toNat = if k.val < n.toNat then data.toNat / 2 ^ (32 - 8 * k.val) % 256 else 0 := by
  split
  case isTrue hlive =>
    rw [mbyte_live n data k hlive]
    exact toNat_extractLsb'_eq_div_mod data _ 8
  case isFalse hdead => rw [mbyte_dead n data k (Nat.not_lt.mp hdead), BitVec.toNat_zero]

theorem toNat_quantumString (n : QLen) (data : Data) :
    (quantumString n data).toNat = data.toNat / 2 ^ (40 - 8 * n.toNat) * 2 ^ (40 - 8 * n.toNat) := by
  have hlt : data.toNat / 2 ^ (40 - 8 * n.toNat) * 2 ^ (40 - 8 * n.toNat) < 2 ^ 40 :=
    Nat.lt_of_le_of_lt (Nat.div_mul_le_self _ _) data.isLt
  rw [quantumString_eq_shift, BitVec.toNat_shiftLeft, BitVec.toNat_ushiftRight, Nat.shiftRight_eq_div_pow,
    Nat.shiftLeft_eq, Nat.mod_eq_of_lt hlt]

/-- Settles O12: the lanes as numbers, their packing as a sum, and the mask as a shift down and up again. -/
theorem quantumStringIsMaskedInput : Obligations.QuantumStringIsMaskedInput := by
  refine fun n data => ⟨toNat_mbyte n data, ?_, toNat_quantumString n data⟩
  rw [quantumString_eq_packLanes, toNat_packLanes]

/-! ## The quintets -/

theorem toNat_quintet (w : Data) (i : Fin 8) : (quintet w i).toNat = w.toNat / 2 ^ (35 - 5 * i.val) % 32 :=
  toNat_extractLsb'_eq_div_mod w _ 5

theorem getLsbD_quintet (w : Data) (i : Fin 8) (j : Nat) :
    (quintet w i).getLsbD j = (decide (j < 5) && w.getLsbD (35 - 5 * i.val + j)) := by
  simp [quintet]

/-- The eight quintets are the digits of the string in base 32 (rule R61). -/
theorem toNat_eq_quintets (w : Data) : w.toNat =
    (quintet w 0).toNat * 2 ^ 35 + (quintet w 1).toNat * 2 ^ 30 + (quintet w 2).toNat * 2 ^ 25 +
      (quintet w 3).toNat * 2 ^ 20 + (quintet w 4).toNat * 2 ^ 15 + (quintet w 5).toNat * 2 ^ 10 +
      (quintet w 6).toNat * 2 ^ 5 + (quintet w 7).toNat := by
  have hlt := w.isLt
  simp only [toNat_quintet, Fin.coe_ofNat_eq_mod, Nat.reduceMod, Nat.reduceMul, Nat.reduceSub, Nat.reducePow]
  omega

theorem quintet_quantumString_of_dead (n : QLen) (data : Data) {i : Fin 8} (h : 8 * n.toNat ≤ 5 * i.val) :
    quintet (quantumString n data) i = 0#5 := by
  refine BitVec.eq_of_getLsbD_eq fun j hj => ?_
  rw [getLsbD_quintet, getLsbD_quantumString_of_dead n data (by omega), Bool.and_false, BitVec.getLsbD_zero]

/-- A field that ends before the last live byte does holds bits of the input. -/
theorem quintet_quantumString_of_live (n : QLen) (data : Data) {i : Fin 8} (h : 5 * (i.val + 1) ≤ 8 * n.toNat) :
    quintet (quantumString n data) i = quintet data i := by
  refine BitVec.eq_of_getLsbD_eq fun j hj => ?_
  rw [getLsbD_quintet, getLsbD_quintet, getLsbD_quantumString_of_live n data (by omega)]

/-- Every value occurs in every field of some string. -/
theorem exists_quintet_eq (i : Fin 8) (v : Quintet) : ∃ w : Data, quintet w i = v := by
  refine ⟨v.setWidth 40 <<< (35 - 5 * i.val), BitVec.eq_of_getLsbD_eq fun j hj => ?_⟩
  have hplace : 35 - 5 * i.val + j < 40 := by omega
  rw [getLsbD_quintet, BitVec.getLsbD_shiftLeft, BitVec.getLsbD_setWidth, Nat.add_sub_cancel_left]
  simp [hj, hplace, Nat.lt_trans hj]

/-- Settles O13: the quintets are base-32 digits, a full quantum's string is its input, and a field past the live bytes
has dead bits only. -/
theorem quintetsRegroupQuantumString : Obligations.QuintetsRegroupQuantumString := by
  refine ⟨toNat_quintet, toNat_eq_quintets, fun i v => ?_, fun n data i => quintet_quantumString_of_dead n data⟩
  obtain ⟨w, hw⟩ := exists_quintet_eq i v
  exact ⟨w, (quantumString_five w).symm ▸ hw⟩

/-! ## The quintets as slices of the lanes -/

section Slices

variable (b0 b1 b2 b3 b4 : Byte)

/-- Rule R62's table of slices. -/
theorem quintet_packLanes :
    quintet (packLanes b0 b1 b2 b3 b4) 0 = b0.extractLsb' 3 5 ∧
    quintet (packLanes b0 b1 b2 b3 b4) 1 = b0.extractLsb' 0 3 ++ b1.extractLsb' 6 2 ∧
    quintet (packLanes b0 b1 b2 b3 b4) 2 = b1.extractLsb' 1 5 ∧
    quintet (packLanes b0 b1 b2 b3 b4) 3 = b1.extractLsb' 0 1 ++ b2.extractLsb' 4 4 ∧
    quintet (packLanes b0 b1 b2 b3 b4) 4 = b2.extractLsb' 0 4 ++ b3.extractLsb' 7 1 ∧
    quintet (packLanes b0 b1 b2 b3 b4) 5 = b3.extractLsb' 2 5 ∧
    quintet (packLanes b0 b1 b2 b3 b4) 6 = b3.extractLsb' 0 2 ++ b4.extractLsb' 5 3 ∧
    quintet (packLanes b0 b1 b2 b3 b4) 7 = b4.extractLsb' 0 5 := by
  refine ⟨?_, ?_, ?_, ?_, ?_, ?_, ?_, ?_⟩ <;>
  · apply BitVec.eq_of_toNat_eq
    simp only [toNat_append_eq_add, toNat_quintet, toNat_extractLsb'_eq_div_mod, toNat_packLanes, Fin.coe_ofNat_eq_mod,
      Nat.reduceMod, Nat.reduceMul, Nat.reduceSub, Nat.reducePow]
    omega

/-- Rule R62's arithmetic: the slices as numbers. -/
theorem toNat_quintet_packLanes :
    (quintet (packLanes b0 b1 b2 b3 b4) 0).toNat = b0.toNat / 8 ∧
    (quintet (packLanes b0 b1 b2 b3 b4) 1).toNat = b0.toNat % 8 * 4 + b1.toNat / 64 ∧
    (quintet (packLanes b0 b1 b2 b3 b4) 2).toNat = b1.toNat / 2 % 32 ∧
    (quintet (packLanes b0 b1 b2 b3 b4) 3).toNat = b1.toNat % 2 * 16 + b2.toNat / 16 ∧
    (quintet (packLanes b0 b1 b2 b3 b4) 4).toNat = b2.toNat % 16 * 2 + b3.toNat / 128 ∧
    (quintet (packLanes b0 b1 b2 b3 b4) 5).toNat = b3.toNat / 4 % 32 ∧
    (quintet (packLanes b0 b1 b2 b3 b4) 6).toNat = b3.toNat % 4 * 8 + b4.toNat / 32 ∧
    (quintet (packLanes b0 b1 b2 b3 b4) 7).toNat = b4.toNat % 32 := by
  obtain ⟨h0, h1, h2, h3, h4, h5, h6, h7⟩ := quintet_packLanes b0 b1 b2 b3 b4
  simp only [h0, h1, h2, h3, h4, h5, h6, h7, toNat_append_eq_add, toNat_extractLsb'_eq_div_mod]
  omega

end Slices

/-- Settles O14: the table holds for any five packed bytes, the masked ones among them. -/
theorem quintetsFromMaskedBytes : Obligations.QuintetsFromMaskedBytes := by
  rintro n data _ _ _ _ _ rfl rfl rfl rfl rfl
  rw [quantumString_eq_packLanes]
  exact ⟨quintet_packLanes _ _ _ _ _, toNat_quintet_packLanes _ _ _ _ _⟩

/-! ## The quantum string of each length as packed lanes -/

theorem quantumString_one_eq_packLanes (data : Data) :
    quantumString .one data = packLanes (lane data 0) 0#8 0#8 0#8 0#8 := rfl

theorem quantumString_two_eq_packLanes (data : Data) :
    quantumString .two data = packLanes (lane data 0) (lane data 1) 0#8 0#8 0#8 := rfl

theorem quantumString_three_eq_packLanes (data : Data) :
    quantumString .three data = packLanes (lane data 0) (lane data 1) (lane data 2) 0#8 0#8 := rfl

theorem quantumString_four_eq_packLanes (data : Data) :
    quantumString .four data = packLanes (lane data 0) (lane data 1) (lane data 2) (lane data 3) 0#8 := rfl

theorem quantumString_five_eq_packLanes (data : Data) :
    quantumString .five data = packLanes (lane data 0) (lane data 1) (lane data 2) (lane data 3) (lane data 4) := rfl

/-- Settles O16: the last data-bearing field is the table's slice with the next byte 0; the fields before it have live
bits only, and the pad fields dead bits only. -/
theorem lastDataFieldZeroFilled : Obligations.LastDataFieldZeroFilled := by
  intro data
  refine ⟨?one, ?two, ?three, ?four, ?five, fun n i hi => ?earlier, fun n i hi => ?pad⟩
  case one =>
    obtain ⟨-, hslice, -⟩ := quintet_packLanes (lane data 0) 0#8 0#8 0#8 0#8
    simpa [quantumString_one_eq_packLanes] using hslice
  case two =>
    obtain ⟨-, -, -, hslice, -⟩ := quintet_packLanes (lane data 0) (lane data 1) 0#8 0#8 0#8
    simpa [quantumString_two_eq_packLanes] using hslice
  case three =>
    obtain ⟨-, -, -, -, hslice, -⟩ := quintet_packLanes (lane data 0) (lane data 1) (lane data 2) 0#8 0#8
    simpa [quantumString_three_eq_packLanes] using hslice
  case four =>
    obtain ⟨-, -, -, -, -, -, hslice, -⟩ :=
      quintet_packLanes (lane data 0) (lane data 1) (lane data 2) (lane data 3) 0#8
    simpa [quantumString_four_eq_packLanes] using hslice
  case five =>
    obtain ⟨-, -, -, -, -, -, -, hslice⟩ :=
      quintet_packLanes (lane data 0) (lane data 1) (lane data 2) (lane data 3) (lane data 4)
    rwa [quantumString_five_eq_packLanes]
  case earlier =>
    have hbits : 5 * (i.val + 1) < 8 * n.toNat := (lt_dataCount_iff n _).mp hi
    exact quintet_quantumString_of_live n data (Nat.le_of_lt hbits)
  case pad => exact quintet_quantumString_of_dead n data ((dataCount_le_iff n _).mp hi)

end Sys2Proof.Machine
end

section
/-! PROOFS, family `41_char_rom.md`. The ROM's codes as numbers, the symbols of a beat field by field, and the statements on
the ROM, its own read and the pad select. -/

namespace Sys2Proof.Machine

/-! ## The contents of the ROM -/

/-- Rule R69's formula; no sum overflows a byte. -/
theorem toNat_romRead (a : Quintet) :
    (romRead a).toNat = if a.toNat ≤ 25 then 0x41 + a.toNat else 0x18 + a.toNat := by
  have hlt := a.isLt
  unfold romRead
  split <;> simp only [BitVec.toNat_add, BitVec.toNat_setWidth, BitVec.toNat_ofNat] <;> omega

/-- A code is an upper-case letter up to address 25 and a digit from `2` to `7` after it. -/
theorem toNat_romRead_cases (a : Quintet) :
    (a.toNat ≤ 25 ∧ (romRead a).toNat = 0x41 + a.toNat) ∨
      (26 ≤ a.toNat ∧ a.toNat ≤ 31 ∧ (romRead a).toNat = 0x18 + a.toNat) := by
  have hlt := a.isLt
  rw [toNat_romRead]
  split <;> omega

/-- The alphabet as the source writes it, read off at every address (rule R69). -/
theorem some_toNat_romRead_eq_alphabet (a : Quintet) :
    some (romRead a).toNat = ("ABCDEFGHIJKLMNOPQRSTUVWXYZ234567".toList.map Char.toNat)[a.toNat]? := by
  revert a
  decide

/-- Letters and digits do not meet, and each range grows with the address. -/
theorem romRead_injective : Function.Injective romRead := by
  intro a b hab
  have hcode : (romRead a).toNat = (romRead b).toNat := congrArg BitVec.toNat hab
  have ha := toNat_romRead_cases a
  have hb := toNat_romRead_cases b
  exact BitVec.eq_of_toNat_eq (by omega)

theorem symbolCode_iff (b : Byte) : symbolCode b = true ↔
    (0x41 ≤ b.toNat ∧ b.toNat ≤ 0x5A) ∨ (0x32 ≤ b.toNat ∧ b.toNat ≤ 0x37) ∨ b = padCode := by
  simp [symbolCode, or_assoc]

theorem symbolCode_padCode : symbolCode padCode = true := rfl

theorem symbolCode_romRead (a : Quintet) : symbolCode (romRead a) = true := by
  rw [symbolCode_iff]
  rcases toNat_romRead_cases a with ⟨hle, hcode⟩ | ⟨hge, hle, hcode⟩
  · exact .inl (by omega)
  · exact .inr (.inl (by omega))

/-- Settles O18: the formula over the address gives the codes; distinctness and the excluded codes follow from its two
ranges. -/
theorem romContents : Obligations.RomContents := by
  refine ⟨fun a => ?formula, some_toNat_romRead_eq_alphabet, fun a b hab => romRead_injective hab, fun a => ?excluded⟩
  case formula =>
    have hcode := toNat_romRead_cases a
    omega
  case excluded =>
    have hcode := toNat_romRead_cases a
    simp only [ne_eq, ← BitVec.toNat_inj, BitVec.toNat_ofNat]
    omega

/-! ## The symbols of a beat -/

theorem beatByte_beat (n : QLen) (data : Data) (i : Fin 8) : beatByte (beat n data) i = symbol n data i :=
  beatByte_cat8 _ i

theorem beatByte_beat_of_data {n : QLen} (data : Data) {i : Fin 8} (h : i.val < dataCount n) :
    beatByte (beat n data) i = romRead (quintet (quantumString n data) i) := by
  simp [beatByte_beat, symbol, symSel, dataEn, h]

theorem beatByte_beat_eq_padCode_iff (n : QLen) (data : Data) (i : Fin 8) :
    beatByte (beat n data) i = padCode ↔ dataCount n ≤ i.val := by
  rw [beatByte_beat, symbol_eq_padCode_iff]

theorem quintet_quantumString_of_pad {n : QLen} (data : Data) {i : Fin 8} (h : dataCount n ≤ i.val) :
    quintet (quantumString n data) i = 0#5 :=
  quintet_quantumString_of_dead n data ((dataCount_le_iff n _).mp h)

/-- Settles O19: the field's position alone selects the ROM or the pad; `A` is what the ROM holds at address 0. -/
theorem padSelectByPosition : Obligations.PadSelectByPosition := by
  refine fun n data i => ⟨beatByte_beat_of_data data, fun hpad => ?pad, fun hdata hzero => ?zero⟩
  case pad => exact ⟨quintet_quantumString_of_pad data hpad, (beatByte_beat_eq_padCode_iff n data i).mpr hpad⟩
  case zero =>
    rw [beatByte_beat_of_data data hdata, hzero]
    rfl

theorem symbolCode_beatByte_beat (n : QLen) (data : Data) (i : Fin 8) :
    symbolCode (beatByte (beat n data) i) = true := by
  rcases Nat.lt_or_ge i.val (dataCount n) with hdata | hpad
  · rw [beatByte_beat_of_data data hdata, symbolCode_romRead]
  · rw [(beatByte_beat_eq_padCode_iff n data i).mpr hpad, symbolCode_padCode]

/-- Every legal quantum has data in its first two fields. -/
theorem two_le_dataCount (n : QLen) : 2 ≤ dataCount n := by
  cases n <;> decide

theorem beatByte_beat_ne_padCode_of_lt_two (n : QLen) (data : Data) {i : Fin 8} (h : i.val < 2) :
    beatByte (beat n data) i ≠ padCode := fun hpad =>
  Nat.not_le.mpr (Nat.lt_of_lt_of_le h (two_le_dataCount n)) ((beatByte_beat_eq_padCode_iff n data i).mp hpad)

/-- Settles O20: a data-bearing field holds a ROM code, which is never `=`, and the others hold `=`; two fields at least
bear data. -/
theorem symbolsOfBeat : Obligations.SymbolsOfBeat := fun n data i =>
  ⟨symbolCode_beatByte_beat n data i, beatByte_beat_eq_padCode_iff n data i,
    fun hdata => ⟨_, beatByte_beat_of_data data hdata⟩,
    beatByte_beat_ne_padCode_of_lt_two n data (by decide), beatByte_beat_ne_padCode_of_lt_two n data (by decide)⟩

/-! ## The ROM's own read -/

/-- Settles O27: the read answers the ROM's code and sets no other field; the same code is the symbol of a data-bearing
field whose quintet is the address. -/
theorem romrdResult : Obligations.RomrdResult := by
  refine fun a s => ⟨exec_romrd a s, toNat_romRead a, fun n data i hdata haddr => ?_⟩
  rw [beatByte_beat_of_data data hdata, haddr]
  exact exec_romrd a s

end Sys2Proof.Machine
end

section
/-! PROOFS, family `42_concatenator.md`. The pack of a beat, the run over the first entries of a stream, the partition as
slices of its input, where the `=` of `encode` stand, and the statements on the whole-sequence contract. -/

namespace Sys2Proof.Machine

/-! ## The pack and the append -/

theorem serialise_cat8 (sym : Fin 8 → Byte) :
    serialise (cat8 sym) = [sym 0, sym 1, sym 2, sym 3, sym 4, sym 5, sym 6, sym 7] := by
  simp only [serialise, beatByte_cat8]

/-- The eight bytes of a beat are its digits in base 256. -/
theorem cat8_beatByte (b : Beat) : cat8 (beatByte b) = b := by
  have hlt := b.isLt
  apply BitVec.eq_of_toNat_eq
  simp only [cat8, beatByte, toNat_append_eq_add, toNat_extractLsb'_eq_div_mod, Fin.coe_ofNat_eq_mod, Nat.reduceMod,
    Nat.reduceMul, Nat.reduceSub, Nat.reducePow]
  omega

/-- Settles O21: the positions and the serial order are read off the pack; a beat is the number its bytes make up. -/
theorem packKeepsSymbols : Obligations.PackKeepsSymbols :=
  ⟨beatByte_cat8, serialise_cat8, cat8_beatByte⟩

/-- A step leaves `OUT` as it was or appends one beat. -/
theorem out_of_step {s t : State} (h : step s = .next t) : t.out = s.out ∨ ∃ b, t.out = s.out ++ serialise b := by
  rcases step_cases s with ⟨a, -, hs⟩ | ⟨-, -, hs⟩ | ⟨p, rest, -, -, -, hs⟩ | ⟨p, rest, n, -, -, -, -, hs⟩ |
    ⟨p, rest, -, -, -, -, hs⟩
  · cases hs.symm.trans h; exact .inl rfl
  · cases hs.symm.trans h; exact .inl rfl
  · cases hs.symm.trans h; exact .inl rfl
  · cases hs.symm.trans h; exact .inr ⟨_, rfl⟩
  · cases hs.symm.trans h

/-- Settles O10: the step on a legal word delivers its beat, whose bytes are its symbols; on a reserved one it is refused;
and every step appends one beat or nothing. -/
theorem appendStep : Obligations.AppendStep := by
  refine ⟨fun s p rest n hrom hinp hv hlen => ?legal, fun s p rest hrom hinp hv hres => ?reserved, fun s t h => ?any⟩
  case legal =>
    have hn : lenOfBits p.inLen = some n := (lenOfBits_eq_some_iff_toNat _ _).mpr hlen
    exact ⟨_, step_of_legal hrom hinp hv hn, by simp [serialise_beat], rfl, by simp [State.pending, hinp, hv]⟩
  case reserved => exact step_of_reserved hrom hinp hv ((lenOfBits_eq_none_iff_reserved _).mpr hres)
  case any =>
    rcases out_of_step h with hout | ⟨b, hout⟩
    · exact ⟨[], by simp [hout], .inl rfl⟩
    · exact ⟨serialise b, hout, .inr (length_serialise b)⟩

/-! ## The partition -/

theorem getElem?_partition {bytes : List Byte} {j : Nat} (hj : j < quantumCount bytes.length) :
    (partition bytes)[j]? = some (quantumAt bytes j) := by
  simp [partition, hj]

theorem lane_quantumAt (bytes : List Byte) (j : Nat) (k : Fin 5) :
    lane (quantumAt bytes j).inData k = bytes.getD (5 * j + k.val) 0#8 :=
  lane_packLanes_apply (fun k => bytes.getD (5 * j + k.val) 0#8) k

theorem liveBytes_packLanes (v : Bool) (len : LenBits) (b0 b1 b2 b3 b4 : Byte) :
    liveBytes { inValid := v, inLen := len, inData := packLanes b0 b1 b2 b3 b4 } =
      [b0, b1, b2, b3, b4].take len.toNat := by
  simp only [liveBytes, lane_packLanes]

/-- The live bytes of the partition, in order, are its input: five at a time, then the fewer than five that are left. -/
theorem flatMap_liveBytes_partition (bytes : List Byte) : (partition bytes).flatMap liveBytes = bytes := by
  induction bytes using expandEncode.induct with
  | case6 b0 b1 b2 b3 b4 rest ih => simp [partition_cons_five, liveBytes_packLanes, ih]
  | _ => simp [partition, quantumCount, quantumAt, liveBytes_packLanes, List.range_succ]

/-- Settles O37: transaction `j` is `quantumAt bytes j`, whose length and lanes are those of rule R77. -/
theorem partitionShape : Obligations.PartitionShape := by
  refine fun bytes => ⟨length_partition bytes, fun j hj => ?_, flatMap_liveBytes_partition bytes⟩
  have hlen := quantumAt_inLen_toNat bytes j
  refine ⟨_, getElem?_partition hj, rfl, hlen, by omega, fun _ => by omega, fun _ => by split <;> omega, fun k hk => ?_⟩
  have hlt : 5 * j + k.val < bytes.length := by omega
  simp [lane_quantumAt, hlt]

/-! ## A run over a legal stream -/

/-- After `k` steps on a legal stream its first `k` entries have been driven, and their beats appended. -/
theorem after_of_legalStream {s : State} {l : List InPorts} {k : Nat} (hrom : s.romAddr = none) (hinp : s.inp = l)
    (hl : legalStream l = true) (hk : k ≤ l.length) :
    ∃ t, Run.after k { state := s, refusal := none } = { state := t, refusal := none } ∧ t.inp = l.drop k ∧
      t.out = s.out ++ ((l.take k).filter (fun p => p.inValid)).flatMap beatBytes := by
  induction k generalizing s l with
  | zero => exact ⟨s, rfl, hinp, by simp⟩
  | succ k ih =>
    cases l with
    | nil => simp at hk
    | cons p rest =>
      obtain ⟨-, hrest⟩ := (legalStream_cons p rest).mp hl
      obtain ⟨t, hstep, htrom, htinp, htout⟩ := step_of_legalStream hrom hinp hl
      obtain ⟨u, hafter, huinp, huout⟩ := ih htrom htinp hrest (by simpa using hk)
      refine ⟨u, (after_succ_of_step k hstep).trans hafter, huinp, ?_⟩
      rw [huout, htout]
      cases hv : p.inValid <;> simp [hv]

theorem exists_lenOfBits_of_mem_partition {bytes : List Byte} {p : InPorts} (hp : p ∈ partition bytes) :
    ∃ n, lenOfBits p.inLen = some n :=
  exists_lenOfBits_of_mem_filter (legalStream_partition bytes) ((filter_partition bytes).symm ▸ hp)

theorem inValid_of_mem_partition {bytes : List Byte} {p : InPorts} (hp : p ∈ partition bytes) : p.inValid = true :=
  (List.mem_filter.mp ((filter_partition bytes).symm ▸ hp)).2

/-- Each legal transaction gives eight bytes. -/
theorem length_flatMap_beatBytes {l : List InPorts} (hl : ∀ p ∈ l, ∃ n, lenOfBits p.inLen = some n) :
    (l.flatMap beatBytes).length = 8 * l.length := by
  induction l with
  | nil => rfl
  | cons p rest ih =>
    obtain ⟨n, hn⟩ := hl p (by simp)
    have hrest := ih fun q hq => hl q (by simp [hq])
    rw [List.flatMap_cons, List.length_append, beatBytes_of_lenOfBits hn, length_serialise, hrest, List.length_cons]
    omega

theorem length_liveBytes_le (p : InPorts) : (liveBytes p).length ≤ 5 := by
  simp [liveBytes]

/-- Settles O41: `k` steps drive the first `k` transactions of the partition, each with a beat of eight bytes, and the
others are still to be presented. -/
theorem runTakesOneStepPerQuantum : Obligations.RunTakesOneStepPerQuantum := by
  intro bytes k hk
  have hT : (partition bytes).length = (bytes.length + 4) / 5 := length_partition bytes
  obtain ⟨t, hafter, hinp, hout⟩ := after_of_legalStream (s := { State.reset with inp := partition bytes })
    (l := partition bytes) rfl rfl (legalStream_partition bytes) (hT ▸ hk)
  have htake : ((partition bytes).take k).filter (fun p => p.inValid) = (partition bytes).take k :=
    List.filter_eq_self.mpr fun p hp => inValid_of_mem_partition (List.mem_of_mem_take hp)
  have hpending : t.pending = (partition bytes).drop k := by
    rw [State.pending, hinp]
    exact List.filter_eq_self.mpr fun p hp => inValid_of_mem_partition (List.mem_of_mem_drop hp)
  rw [launch, hafter]
  refine ⟨?bytes, ?ends, fun p _ => length_liveBytes_le p⟩
  case bytes =>
    rw [hout, htake, List.length_append,
      length_flatMap_beatBytes fun p hp => exists_lenOfBits_of_mem_partition (List.mem_of_mem_take hp),
      List.length_take_of_le (hT ▸ hk)]
    exact Nat.zero_add _
  case ends =>
    simp only [Run.over, hpending, Option.isNone_none, Bool.true_and, List.isEmpty_iff, List.drop_eq_nil_iff, hT]
    omega

/-- Settles O42: the output is `OUT` after the last of `ceil(L / 5)` steps of eight bytes each. -/
theorem outputLength : Obligations.OutputLength := by
  intro bytes
  obtain ⟨hlen, -, -⟩ := runTakesOneStepPerQuantum bytes _ (Nat.le_refl _)
  exact ⟨hlen, by rw [encodeBytes, quantumCount, hlen, Nat.mul_mod_right]⟩

/-! ## `encode` as beats, and every presentation of its input -/

/-- Settles O39: a run over a legal stream leaves the beats of its transactions in `OUT`, and the partition is one. -/
theorem encodeIsBeatsOfPartition : Obligations.EncodeIsBeatsOfPartition :=
  encodeBytes_eq_flatMap_beatBytes

/-- Settles O45: there is no quantum in the empty input, so no beat in its output. -/
theorem emptyInput : Obligations.EmptyInput :=
  ⟨rfl, rfl, nofun⟩

theorem SameQuantum.beatBytes_eq {p q : InPorts} (h : SameQuantum p q) : beatBytes p = beatBytes q := by
  have hlen : p.inLen = q.inLen := h.2.1
  cases hn : lenOfBits p.inLen with
  | none => simp [beatBytes, ← hlen, hn]
  | some n => rw [beatBytes_of_lenOfBits hn, beatBytes_of_lenOfBits (hlen ▸ hn), h.beat_eq hn]

/-- What every two entries of one quantum agree on, two lists of the same quanta agree on, entry by entry. -/
theorem map_eq_of_forall₂_sameQuantum {α : Type} {f : InPorts → α} (hf : ∀ {p q}, SameQuantum p q → f p = f q)
    {l l' : List InPorts} (h : List.Forall₂ SameQuantum l l') : l.map f = l'.map f := by
  induction h with
  | nil => rfl
  | cons hpq _ ih => rw [List.map_cons, List.map_cons, hf hpq, ih]

theorem legalStream_eq_all_filter (l : List InPorts) :
    legalStream l = ((l.filter (fun p => p.inValid)).map InPorts.inLen).all legalLen := by
  simp only [legalStream, List.all_map, List.all_filter]
  rfl

/-- A stream that presents some bytes is legal, since its lengths are those of the partition. -/
theorem Presents.legalStream {bytes : List Byte} {l : List InPorts} (h : Presents bytes l) : legalStream l = true := by
  have hlens : (partition bytes).map InPorts.inLen = (l.filter (fun p => p.inValid)).map InPorts.inLen :=
    map_eq_of_forall₂_sameQuantum (fun ⟨_, hlen, _⟩ => hlen) h
  rw [legalStream_eq_all_filter, ← hlens, ← filter_partition, ← legalStream_eq_all_filter, legalStream_partition]

/-- Settles O40: a presentation is a legal stream, so its run is over with the beats of its transactions, and those are the
beats of the partition. -/
theorem everyPresentationEncodes : Obligations.EveryPresentationEncodes := by
  intro bytes l h
  obtain ⟨hover, hout⟩ := launch_of_legalStream h.legalStream
  have hbeats : (partition bytes).map beatBytes = (l.filter (fun p => p.inValid)).map beatBytes :=
    map_eq_of_forall₂_sameQuantum SameQuantum.beatBytes_eq h
  refine ⟨hover, ?refusal, ?out⟩
  case refusal =>
    rw [Run.over, Bool.and_eq_true, Option.isNone_iff_eq_none] at hover
    exact hover.1
  case out => rw [hout, encodeBytes_eq_flatMap_beatBytes, List.flatMap_def, List.flatMap_def, hbeats]

/-! ## `encode` five bytes at a time -/

theorem encodeBytes_cons_five (b0 b1 b2 b3 b4 : Byte) (rest : List Byte) :
    encodeBytes (b0 :: b1 :: b2 :: b3 :: b4 :: rest) =
      serialise (beat .five (packLanes b0 b1 b2 b3 b4)) ++ encodeBytes rest := by
  simp only [encodeBytes_eq_flatMap_beatBytes, partition_cons_five, List.flatMap_cons]
  rw [beatBytes_of_lenOfBits (n := .five) rfl]

/-- An input of 1 to 5 bytes is one quantum of its length. -/
theorem exists_encodeBytes_eq_serialise {bytes : List Byte} (hpos : 0 < bytes.length) (hle : bytes.length ≤ 5) :
    ∃ n data, QLen.toNat n = bytes.length ∧ encodeBytes bytes = serialise (beat n data) := by
  have hone : quantumCount bytes.length = 1 := by simp only [quantumCount]; omega
  have hpart : partition bytes = [quantumAt bytes 0] := by simp [partition, hone]
  obtain ⟨n, hn⟩ := exists_lenOfBits_of_mem_partition (bytes := bytes) (p := quantumAt bytes 0) (by simp [hpart])
  refine ⟨n, (quantumAt bytes 0).inData, ?_, ?_⟩
  · rw [← (lenOfBits_eq_some_iff_toNat _ _).mp hn, quantumAt_inLen_toNat]
    omega
  · rw [encodeBytes_eq_flatMap_beatBytes, hpart, List.flatMap_singleton, beatBytes_of_lenOfBits hn]

/-- The law of rule R85: whole quanta in front leave the others as they are. -/
theorem encodeBytes_append {pre : List Byte} (suf : List Byte) (h : pre.length % 5 = 0) :
    encodeBytes (pre ++ suf) = encodeBytes pre ++ encodeBytes suf := by
  induction pre using expandEncode.induct with
  | case1 => rfl
  | case6 b0 b1 b2 b3 b4 rest ih =>
    have hrest : rest.length % 5 = 0 := by simp only [List.length_cons] at h; omega
    simp only [List.cons_append, encodeBytes_cons_five, ih hrest, List.append_assoc]
  | _ => simp at h

/-! ## Where the `=` stand -/

/-- A beat is its data symbols, none of them `=`, and then the pads. -/
theorem exists_serialise_beat_eq_append_replicate (n : QLen) (data : Data) :
    ∃ syms, serialise (beat n data) = syms ++ List.replicate (8 - dataCount n) padCode ∧ padCode ∉ syms := by
  have hpads : (List.ofFn (symbol n data)).drop (dataCount n) = List.replicate (8 - dataCount n) padCode := by
    refine List.eq_replicate_iff.mpr ⟨by simp, fun b hb => ?_⟩
    obtain ⟨i, hi, rfl⟩ := List.mem_drop_iff_getElem.mp hb
    rw [List.getElem_ofFn]
    exact (symbol_eq_padCode_iff n data _).mpr (Nat.le_add_right _ _)
  refine ⟨(List.ofFn (symbol n data)).take (dataCount n), ?_, fun hmem => ?_⟩
  · rw [serialise_beat, ← hpads, List.take_append_drop]
  · obtain ⟨i, hi, hpad⟩ := List.mem_take_iff_getElem.mp hmem
    rw [List.getElem_ofFn, symbol_eq_padCode_iff] at hpad
    exact absurd (Nat.lt_of_lt_of_le hi (Nat.min_le_left _ _)) (Nat.not_lt.mpr hpad)

/-- How many `=` the output for `len` bytes has: its `8 * ceil(len / 5)` bytes but the `ceil(8 * len / 5)` data symbols. -/
def padCount (len : Nat) : Nat := 8 * quantumCount len - (8 * len + 4) / 5

theorem padCount_lt_eight (len : Nat) : padCount len < 8 := by
  simp only [padCount, quantumCount]
  omega

theorem padCount_pos_iff (len : Nat) : 0 < padCount len ↔ len % 5 ≠ 0 := by
  simp only [padCount, quantumCount]
  omega

theorem padCount_add_five (len : Nat) : padCount (len + 5) = padCount len := by
  simp only [padCount, quantumCount]
  omega

theorem padCount_toNat (n : QLen) : padCount n.toNat = 8 - dataCount n := by
  cases n <;> rfl

/-- The output for one quantum is its data symbols and then its pads. -/
theorem exists_encodeBytes_eq_append_replicate_of_le_five {bytes : List Byte} (hpos : 0 < bytes.length)
    (hle : bytes.length ≤ 5) :
    ∃ syms, encodeBytes bytes = syms ++ List.replicate (padCount bytes.length) padCode ∧ padCode ∉ syms := by
  obtain ⟨n, data, hlen, henc⟩ := exists_encodeBytes_eq_serialise hpos hle
  rw [henc, ← hlen, padCount_toNat]
  exact exists_serialise_beat_eq_append_replicate n data

/-- `encode(B)` is data symbols, none of them `=`, and then the pads of its last quantum: a full quantum in front adds data
symbols only. -/
theorem exists_encodeBytes_eq_append_replicate (bytes : List Byte) :
    ∃ syms, encodeBytes bytes = syms ++ List.replicate (padCount bytes.length) padCode ∧ padCode ∉ syms := by
  induction bytes using expandEncode.induct with
  | case1 => exact ⟨[], rfl, List.not_mem_nil⟩
  | case6 b0 b1 b2 b3 b4 rest ih =>
    obtain ⟨syms, henc, hsyms⟩ := ih
    have hpads : padCount (b0 :: b1 :: b2 :: b3 :: b4 :: rest).length = padCount rest.length :=
      padCount_add_five rest.length
    refine ⟨serialise (beat .five (packLanes b0 b1 b2 b3 b4)) ++ syms, ?_, ?_⟩
    · rw [hpads, encodeBytes_cons_five, henc, List.append_assoc]
    · simp [padCode_notMem_beat_five, hsyms]
  | _ => exact exists_encodeBytes_eq_append_replicate_of_le_five (by simp) (by simp)

theorem count_padCode_encodeBytes (bytes : List Byte) : (encodeBytes bytes).count padCode = padCount bytes.length := by
  obtain ⟨syms, henc, hsyms⟩ := exists_encodeBytes_eq_append_replicate bytes
  rw [henc, List.count_append, List.count_eq_zero.mpr hsyms, List.count_replicate_self, Nat.zero_add]

/-- Settles O44: the number of pads is a function of the length, and it is `8 - d` for the last quantum. -/
theorem paddingCount : Obligations.PaddingCount := by
  intro bytes
  simp only [count_padCode_encodeBytes, padCount, quantumCount]
  omega

/-- Settles O43: an `=` stands past the data symbols, where every byte is an `=`. -/
theorem paddingIsFinalSuffix : Obligations.PaddingIsFinalSuffix := by
  intro bytes
  obtain ⟨syms, henc, hsyms⟩ := exists_encodeBytes_eq_append_replicate bytes
  refine ⟨⟨syms, _, henc, hsyms, padCount_lt_eight _⟩, fun i hi => ⟨length_encodeBytes_le_of_padCode hi, ?_⟩⟩
  intro j hij hj
  rw [henc] at hi hj ⊢
  have hpast : syms.length ≤ i := by
    by_contra hlt
    rw [List.getElem?_append_left (by omega)] at hi
    exact hsyms (List.mem_of_getElem? hi)
  rw [List.length_append, List.length_replicate] at hj
  rw [List.getElem?_append_right (by omega), List.getElem?_replicate_of_lt (by omega)]

/-- Where `5` does not divide the length, the output ends with an `=`. -/
theorem encodeBytes_getElem?_last {bytes : List Byte} (h : bytes.length % 5 ≠ 0) :
    (encodeBytes bytes)[(encodeBytes bytes).length - 1]? = some padCode := by
  obtain ⟨syms, henc, -⟩ := exists_encodeBytes_eq_append_replicate bytes
  have hpos : 0 < padCount bytes.length := (padCount_pos_iff _).mpr h
  rw [henc, List.length_append, List.length_replicate, List.getElem?_append_right (by omega),
    List.getElem?_replicate_of_lt (by omega)]

/-- At any other split the output of the first part ends with an `=`, and a group of eight follows it: no `encode(B)` has
one there. -/
theorem encodeBytes_append_ne {pre suf : List Byte} (hpre : pre.length % 5 ≠ 0) (hsuf : suf ≠ []) :
    encodeBytes (pre ++ suf) ≠ encodeBytes pre ++ encodeBytes suf := by
  intro heq
  have hpad := encodeBytes_getElem?_last hpre
  obtain ⟨hlenPre, -⟩ := outputLength pre
  obtain ⟨hlenSuf, -⟩ := outputLength suf
  have hsufPos : 0 < suf.length := List.length_pos_iff.mpr hsuf
  rw [← List.getElem?_append_left (l₂ := encodeBytes suf) (by omega), ← heq] at hpad
  have hlast := length_encodeBytes_le_of_padCode hpad
  rw [heq, List.length_append] at hlast
  omega

/-- Settles O46: the law and its failure are the two lemmas above; the rule's own strings are runs of two quanta. -/
theorem concatenationLaw : Obligations.ConcatenationLaw :=
  ⟨fun _ suf h => encodeBytes_append suf h, fun _ _ => encodeBytes_append_ne, by decide, by decide⟩

end Sys2Proof.Machine
end

section
/-! PROOFS, family `43_quantum_ops.md`. A transaction word with its lanes written out, the closed form of a delivered beat
over its masked lanes, the relations between beats of different lengths, and the statements on `Q1` to `Q5`. -/

namespace Sys2Proof.Machine

/-! ## Transaction words with their fields written out (rule R46) -/

section Words

variable (len : LenBits) (b0 b1 b2 b3 b4 : Byte)

theorem word_of_five_lanes : len ++ b0 ++ b1 ++ b2 ++ b3 ++ b4 = mkWord len (packLanes b0 b1 b2 b3 b4) := by
  apply BitVec.eq_of_toNat_eq
  simp only [mkWord, packLanes, toNat_append_eq_add]
  omega

theorem word_of_three_lanes (dead : BitVec 16) :
    len ++ b0 ++ b1 ++ b2 ++ dead =
      mkWord len (packLanes b0 b1 b2 (dead.extractLsb' 8 8) (dead.extractLsb' 0 8)) := by
  apply BitVec.eq_of_toNat_eq
  simp only [mkWord, packLanes, toNat_append_eq_add, toNat_extractLsb'_eq_div_mod]
  omega

theorem word_of_two_lanes (dead : BitVec 24) :
    len ++ b0 ++ b1 ++ dead =
      mkWord len (packLanes b0 b1 (dead.extractLsb' 16 8) (dead.extractLsb' 8 8) (dead.extractLsb' 0 8)) := by
  apply BitVec.eq_of_toNat_eq
  simp only [mkWord, packLanes, toNat_append_eq_add, toNat_extractLsb'_eq_div_mod]
  omega

theorem word_of_one_lane (dead : BitVec 32) :
    len ++ b0 ++ dead =
      mkWord len (packLanes b0 (dead.extractLsb' 24 8) (dead.extractLsb' 16 8) (dead.extractLsb' 8 8)
        (dead.extractLsb' 0 8)) := by
  apply BitVec.eq_of_toNat_eq
  simp only [mkWord, packLanes, toNat_append_eq_add, toNat_extractLsb'_eq_div_mod]
  omega

end Words

theorem decode_mkWord {len : LenBits} {n : QLen} (data : Data) (hn : lenOfBits len = some n) :
    decode (.transaction (mkWord len data)) = .ok (quantumInstr n data) := by
  rw [decode_of_lenOfBits (tw := mkWord len data) (by rwa [wordLen_mkWord]), wordData_mkWord]

/-! ## A beat over its masked lanes -/

section Symbols

variable (n : QLen) (b0 b1 b2 b3 b4 : Byte)

/-- Rule R62's slices of five masked lanes. -/
def laneSlices : Fin 8 → Quintet :=
  ![b0.extractLsb' 3 5, b0.extractLsb' 0 3 ++ b1.extractLsb' 6 2, b1.extractLsb' 1 5,
    b1.extractLsb' 0 1 ++ b2.extractLsb' 4 4, b2.extractLsb' 0 4 ++ b3.extractLsb' 7 1, b3.extractLsb' 2 5,
    b3.extractLsb' 0 2 ++ b4.extractLsb' 5 3, b4.extractLsb' 0 5]

theorem quintet_packLanes_eq_laneSlices : quintet (packLanes b0 b1 b2 b3 b4) = laneSlices b0 b1 b2 b3 b4 := by
  obtain ⟨h0, h1, h2, h3, h4, h5, h6, h7⟩ := quintet_packLanes b0 b1 b2 b3 b4
  funext i
  fin_cases i
  exacts [h0, h1, h2, h3, h4, h5, h6, h7]

/-- Rule R88's symbols, with the quintets as slices of the masked lanes. -/
def laneSymbols (i : Fin 8) : Byte := symSel (dataEn n i) (romRead (laneSlices b0 b1 b2 b3 b4 i))

variable {n b0 b1 b2 b3 b4}

theorem symbol_eq_laneSymbols {data : Data} (h : quantumString n data = packLanes b0 b1 b2 b3 b4) :
    symbol n data = laneSymbols n b0 b1 b2 b3 b4 := by
  funext i
  rw [symbol, h, quintet_packLanes_eq_laneSlices, laneSymbols]

/-- The effect of a transaction on the state, from its masked lanes (rule R88). -/
theorem deliver_beat_eq {data : Data} (h : quantumString n data = packLanes b0 b1 b2 b3 b4) (s : State) :
    deliver (beat n data) s =
      { s with
        outPorts := { outValid := true, outSym := cat8 (laneSymbols n b0 b1 b2 b3 b4) }
        out := s.out ++ List.ofFn (laneSymbols n b0 b1 b2 b3 b4) } := by
  rw [deliver, serialise_beat, beat, symbol_eq_laneSymbols h]

end Symbols

section Pads

variable {m : Nat} (x : BitVec m)

theorem append_six_pads :
    x ++ 0x3D#8 ++ 0x3D#8 ++ 0x3D#8 ++ 0x3D#8 ++ 0x3D#8 ++ 0x3D#8 = x ++ 0x3D3D3D3D3D3D#48 := by
  apply BitVec.eq_of_toNat_eq
  simp only [toNat_append_eq_add, BitVec.toNat_ofNat]
  omega

theorem append_four_pads : x ++ 0x3D#8 ++ 0x3D#8 ++ 0x3D#8 ++ 0x3D#8 = x ++ 0x3D3D3D3D#32 := by
  apply BitVec.eq_of_toNat_eq
  simp only [toNat_append_eq_add, BitVec.toNat_ofNat]
  omega

theorem append_three_pads : x ++ 0x3D#8 ++ 0x3D#8 ++ 0x3D#8 = x ++ 0x3D3D3D#24 := by
  apply BitVec.eq_of_toNat_eq
  simp only [toNat_append_eq_add, BitVec.toNat_ofNat]
  omega

end Pads

/-! ## The five transactions -/

/-- Settles O22: the dead lanes are split off the word, the beat is the one over `b0` and four zero lanes, and a quintet
with two zero bits below has one of eight symbols. -/
theorem q1Result : Obligations.Q1Result := by
  intro b0 dead s
  have hmask : quantumString .one (packLanes b0 0#8 0#8 0#8 0#8) = packLanes b0 0#8 0#8 0#8 0#8 := by
    simp only [quantumString_one_eq_packLanes, lane_packLanes]
  refine ⟨?decodes, congrArg _ (word_of_one_lane 1#3 b0 0#32).symm, ?result, ?last⟩
  case decodes =>
    rw [word_of_one_lane, decode_mkWord (n := .one) _ rfl]
    simp only [quantumInstr, lane_packLanes]
  case result =>
    rw [← append_six_pads]
    exact congrArg Host.Outcome.next (deliver_beat_eq hmask s)
  case last =>
    generalize b0.extractLsb' 0 3 = x
    revert x
    decide

/-- Settles O23: as for `Q1`, with two live lanes; the fourth quintet is the lowest bit of `b1` above four zeros. -/
theorem q2Result : Obligations.Q2Result := by
  intro b0 b1 dead s
  have hmask : quantumString .two (packLanes b0 b1 0#8 0#8 0#8) = packLanes b0 b1 0#8 0#8 0#8 := by
    simp only [quantumString_two_eq_packLanes, lane_packLanes]
  refine ⟨?decodes, congrArg _ (word_of_two_lanes 2#3 b0 b1 0#24).symm, ?result, ?last⟩
  case decodes =>
    rw [word_of_two_lanes, decode_mkWord (n := .two) _ rfl]
    simp only [quantumInstr, lane_packLanes]
  case result =>
    rw [← append_four_pads]
    exact congrArg Host.Outcome.next (deliver_beat_eq hmask s)
  case last =>
    have hbit : (b1.extractLsb' 0 1).toNat = b1.toNat % 2 := by
      rw [toNat_extractLsb'_eq_div_mod, Nat.pow_zero, Nat.div_one, Nat.pow_one]
    rw [← hbit]
    generalize b1.extractLsb' 0 1 = x
    revert x
    decide

/-- Settles O24: as for `Q1`, with three live lanes; the fifth quintet is four bits of `b2` above a zero. -/
theorem q3Result : Obligations.Q3Result := by
  intro b0 b1 b2 dead s
  have hmask : quantumString .three (packLanes b0 b1 b2 0#8 0#8) = packLanes b0 b1 b2 0#8 0#8 := by
    simp only [quantumString_three_eq_packLanes, lane_packLanes]
  refine ⟨?decodes, congrArg _ (word_of_three_lanes 3#3 b0 b1 b2 0#16).symm, ?result, ?last⟩
  case decodes =>
    rw [word_of_three_lanes, decode_mkWord (n := .three) _ rfl]
    simp only [quantumInstr, lane_packLanes]
  case result =>
    rw [← append_three_pads]
    exact congrArg Host.Outcome.next (deliver_beat_eq hmask s)
  case last =>
    generalize b2.extractLsb' 0 4 = x
    revert x
    decide

/-- Settles O25: as for `Q1`, with four live lanes; the dead bits are one whole lane, and the seventh quintet is two bits
of `b3` above three zeros. -/
theorem q4Result : Obligations.Q4Result := by
  intro b0 b1 b2 b3 dead s
  have hmask : quantumString .four (packLanes b0 b1 b2 b3 0#8) = packLanes b0 b1 b2 b3 0#8 := by
    simp only [quantumString_four_eq_packLanes, lane_packLanes]
  refine ⟨?decodes, congrArg _ (word_of_five_lanes 4#3 b0 b1 b2 b3 0#8).symm, ?result, ?last⟩
  case decodes =>
    rw [word_of_five_lanes, decode_mkWord (n := .four) _ rfl]
    simp only [quantumInstr, lane_packLanes]
  case result => exact congrArg Host.Outcome.next (deliver_beat_eq hmask s)
  case last =>
    generalize b3.extractLsb' 0 2 = x
    revert x
    decide

/-- Settles O26: every lane is live, so the word is its lanes and every field of the beat is a ROM symbol. -/
theorem q5Result : Obligations.Q5Result := by
  intro b0 b1 b2 b3 b4 s
  refine ⟨?decodes, congrArg _ (word_of_five_lanes 5#3 b0 b1 b2 b3 b4).symm, ?result⟩
  case decodes =>
    rw [word_of_five_lanes, decode_mkWord (n := .five) _ rfl]
    simp only [quantumInstr, lane_packLanes]
  case result => exact congrArg Host.Outcome.next (deliver_beat_eq (quantumString_five _) s)

/-! ## Beats of different lengths -/

/-- A field with five live bits holds the same symbol at every length that gives it five. -/
theorem beatByte_beat_of_live {n : QLen} (data : Data) {i : Fin 8} (h : 5 * (i.val + 1) ≤ 8 * n.toNat) :
    beatByte (beat n data) i = romRead (quintet data i) := by
  have hdata : i.val < dataCount n := (lt_dataCount_iff n _).mpr (by omega)
  rw [beatByte_beat_of_data data hdata, quintet_quantumString_of_live n data h]

theorem beatByte_beat_five (data : Data) (i : Fin 8) :
    beatByte (beat .five data) i = romRead (quintet data i) :=
  beatByte_beat_of_live data (by simp only [QLen.toNat]; omega)

theorem QLen.toNat_injective : Function.Injective QLen.toNat := by
  intro m n h
  have hn : lenOfBits m.toBits = some n := (lenOfBits_eq_some_iff_toNat _ _).mpr ((toNat_toBits m).trans h)
  exact Option.some.inj ((lenOfBits_toBits m).symm.trans hn)

theorem dataCount_le_eight (n : QLen) : dataCount n ≤ 8 := by
  cases n <;> decide

theorem dataCount_injective : Function.Injective dataCount := by
  intro m n h
  simp only [dataCount] at h
  exact QLen.toNat_injective (by omega)

/-- A field that is a pad in the one of two equal beats is a pad in the other. -/
theorem dataCount_le_of_beat_eq {m n : QLen} {data data' : Data} (h : beat m data = beat n data') :
    dataCount n ≤ dataCount m := by
  by_contra! hlt
  have hfield : dataCount m < 8 := Nat.lt_of_lt_of_le hlt (dataCount_le_eight n)
  have hpad : beatByte (beat m data) ⟨dataCount m, hfield⟩ = padCode :=
    (beatByte_beat_eq_padCode_iff m data _).mpr (Nat.le_refl _)
  rw [h, beatByte_beat_eq_padCode_iff] at hpad
  exact Nat.not_le.mpr hlt hpad

/-- Settles O30: the fields of a `Q5` are read off its string, those with five live bits off the input at any length, and
equal beats have as many pads. -/
theorem relationsBetweenTransactions : Obligations.RelationsBetweenTransactions := by
  refine ⟨fun n data i => ⟨fun hdata => ?extended, fun hpad => ⟨?zero, ?pad⟩⟩, fun m n data i hmn hi => ?pre,
    fun m n data data' hne heq => ?lengths⟩
  case extended => rw [beatByte_beat_of_data data hdata, beatByte_beat_five]
  case zero =>
    rw [beatByte_beat_five, quintet_quantumString_of_pad data hpad]
    rfl
  case pad => exact (beatByte_beat_eq_padCode_iff n data i).mpr hpad
  case pre =>
    have hbits : 5 * (i.val + 1) < 8 * m.toNat := (lt_dataCount_iff m _).mp hi
    rw [beatByte_beat_of_live data (n := m) (by omega), beatByte_beat_of_live data (n := n) (by omega)]
  case lengths =>
    exact hne (dataCount_injective (Nat.le_antisymm (dataCount_le_of_beat_eq heq.symm) (dataCount_le_of_beat_eq heq)))

end Sys2Proof.Machine
end

section
/-! PROOFS, family `other`. The round trip of the encoding, the opcode table as match and mask, what one step keeps (the
observation invariant, the ROM's port, an idle `IN`), the frames, and the statements on `encode` as a whole. -/

namespace Sys2Proof.Machine

/-! ## The decoder and the encoder -/

/-- The issuable instructions are the quanta of rule R49. -/
theorem exists_eq_quantumInstr {i : Instr} (h : i.issuable = true) : ∃ n data, i = quantumInstr n data := by
  cases i with
  | q1 b0 => exact ⟨.one, packLanes b0 0#8 0#8 0#8 0#8, by simp only [quantumInstr, lane_packLanes]⟩
  | q2 b0 b1 => exact ⟨.two, packLanes b0 b1 0#8 0#8 0#8, by simp only [quantumInstr, lane_packLanes]⟩
  | q3 b0 b1 b2 => exact ⟨.three, packLanes b0 b1 b2 0#8 0#8, by simp only [quantumInstr, lane_packLanes]⟩
  | q4 b0 b1 b2 b3 => exact ⟨.four, packLanes b0 b1 b2 b3 0#8, by simp only [quantumInstr, lane_packLanes]⟩
  | q5 b0 b1 b2 b3 b4 => exact ⟨.five, packLanes b0 b1 b2 b3 b4, by simp only [quantumInstr, lane_packLanes]⟩
  | romrd a => cases h

theorem issuable_quantumInstr (n : QLen) (data : Data) : (quantumInstr n data).issuable = true := by
  cases n <;> rfl

theorem decode_encode_quantumInstr (n : QLen) (data : Data) :
    decode (encode (quantumInstr n data)) = .ok (quantumInstr n data) := by
  rw [encode_quantumInstr, decode_mkWord _ (lenOfBits_toBits n), quantumInstr_quantumString]

/-- Settles O1: an issuable instruction is a quantum, whose canonical word carries its length and its masked lanes; a
`ROMRD` is its address. -/
theorem decodeOfEncode : Obligations.DecodeOfEncode := by
  intro i _
  cases hi : i.issuable with
  | true =>
    obtain ⟨n, data, rfl⟩ := exists_eq_quantumInstr hi
    exact decode_encode_quantumInstr n data
  | false =>
    cases i with
    | romrd a => rfl
    | _ => cases hi

/-- A transaction word decodes to a quantum of its own lanes or to nothing. -/
theorem exists_quantumInstr_of_decode {tw : TxWord} {i : Instr} (h : decode (.transaction tw) = .ok i) :
    ∃ n, lenOfBits (wordLen tw) = some n ∧ i = quantumInstr n (wordData tw) := by
  cases hn : lenOfBits (wordLen tw) with
  | none =>
    rw [decode_of_reserved hn] at h
    cases h
  | some n =>
    rw [decode_of_lenOfBits hn] at h
    cases h
    exact ⟨n, rfl, rfl⟩

theorem issuable_of_decode {tw : TxWord} {i : Instr} (h : decode (.transaction tw) = .ok i) : i.issuable = true := by
  obtain ⟨n, -, rfl⟩ := exists_quantumInstr_of_decode h
  exact issuable_quantumInstr n _

/-! ## The opcode table as match and mask -/

theorem mkWord_zero_inj {len len' : LenBits} : mkWord len 0#40 = mkWord len' 0#40 ↔ len = len' := by
  refine ⟨fun h => ?_, congrArg (mkWord · 0#40)⟩
  simpa only [wordLen_mkWord] using congrArg wordLen h

/-- A word meets the row of length `n` exactly when its length field is `n`. -/
theorem word_and_mask_eq_iff (tw : TxWord) (n : QLen) :
    tw &&& 0x70000000000#43 = BitVec.ofNat 43 (n.toNat * 2 ^ 40) ↔ lenOfBits (wordLen tw) = some n := by
  have hmask : tw &&& 0x70000000000#43 = mkWord (wordLen tw) 0#40 := by
    simpa only [mkWord_fields] using Laws.TableRow.mkWord_and_mask (wordLen tw) (wordData tw)
  have hmatch : BitVec.ofNat 43 (n.toNat * 2 ^ 40) = mkWord n.toBits 0#40 := by cases n <;> rfl
  rw [hmask, hmatch, mkWord_zero_inj, lenOfBits_eq_some_iff]

/-- Operations of different lengths differ: the canonical word of each has its length field. -/
theorem quantumInstr_length_inj {m n : QLen} {data data' : Data} (h : quantumInstr m data = quantumInstr n data') :
    m = n := by
  have hword := congrArg encode h
  rw [encode_quantumInstr, encode_quantumInstr, Encoded.transaction.injEq] at hword
  have hlen : m.toBits = n.toBits := by simpa only [wordLen_mkWord] using congrArg wordLen hword
  exact QLen.toNat_injective (by rw [← toNat_toBits m, hlen, toNat_toBits])

/-- Settles O3: match and mask compare the length field, which alone selects the operation; one that matches no row is
reserved. -/
theorem tableRowsSelectOperation : Obligations.TableRowsSelectOperation := by
  simp only [Obligations.TableRowsSelectOperation, ne_eq, word_and_mask_eq_iff]
  refine ⟨fun tw n => ⟨fun h => ?selected, decode_of_lenOfBits⟩, fun tw hnone => ?reserved, fun tw a h => ?romrd⟩
  case selected =>
    obtain ⟨m, hm, heq⟩ := exists_quantumInstr_of_decode h
    rwa [quantumInstr_length_inj heq]
  case reserved => exact decode_of_reserved (Option.eq_none_iff_forall_ne_some.mpr hnone)
  case romrd => exact Bool.noConfusion (issuable_of_decode h)

/-- Settles O4: each word is decoded by evaluation. -/
theorem writtenOutWordsDecode : Obligations.WrittenOutWordsDecode := by
  unfold Obligations.WrittenOutWordsDecode
  decide

/-! ## The instruction a step runs -/

theorem step_of_decode {s : State} {p : InPorts} {rest : List InPorts} {i : Instr} (hrom : s.romAddr = none)
    (hinp : s.inp = p :: rest) (hv : p.inValid = true) (hdec : decode (.transaction (portWord p)) = .ok i) :
    step s = exec i (present p rest s) := by
  simp [step, fetch_cons hrom hinp, evaluate, hv, hdec]

theorem step_of_romAddr {s : State} {a : Quintet} (hrom : s.romAddr = some a) :
    step s = exec (.romrd a) (takeRomAddr s) := by
  simp [step, fetch, hrom]

/-- Settles O5: the two equations of a step that runs an instruction. -/
theorem stepRunsDecodedInstruction : Obligations.StepRunsDecodedInstruction :=
  ⟨fun _ _ _ _ => step_of_decode, fun _ _ => step_of_romAddr⟩

theorem decodeTableWord_eq_some {nbits w : Nat} {i : Instr} (h : decodeTableWord nbits w = some i) :
    ∃ e, tableEncoded nbits w = some e ∧ decode e = .ok i := by
  unfold decodeTableWord at h
  split at h
  case h_1 e he =>
    split at h
    case h_1 j hj => exact ⟨e, he, Option.some.inj h ▸ hj⟩
    case h_2 => cases h
  case h_2 => cases h

theorem withFetchWord_of_tableEncoded {nbits w : Nat} {e : Encoded} (s : State) (h : tableEncoded nbits w = some e) :
    s.withFetchWord nbits w = place e s := by
  simp [State.withFetchWord, placeTableWord, h]

theorem portWord_portsOfWord (tw : TxWord) : portWord (portsOfWord tw) = tw := mkWord_fields tw

/-- Settles O6: a transaction word stands at the head of `inp` and is issuable, an address stands on the ROM's port and is
not; the step takes either off again. -/
theorem placedWordRunsNext : Obligations.PlacedWordRunsNext := by
  intro s nbits w i h
  obtain ⟨e, he, hdec⟩ := decodeTableWord_eq_some h
  rw [withFetchWord_of_tableEncoded s he]
  cases e with
  | transaction tw =>
    have hport : decode (.transaction (portWord (portsOfWord tw))) = .ok i := by rwa [portWord_portsOfWord]
    have hissue : i.issuable = true := issuable_of_decode hdec
    exact ⟨_, step_of_decode (s := place (.transaction tw) s) rfl rfl rfl hport, rfl, rfl, rfl, rfl, rfl, rfl,
      fun _ => ⟨rfl, hport⟩, by simp [hissue]⟩
  | romAddress a =>
    cases hdec
    exact ⟨_, step_of_romAddr (s := place (.romAddress a) s) rfl, rfl, rfl, rfl, rfl, rfl, rfl, nofun, fun _ => rfl⟩

/-! ## The outcome of a step -/

/-- Settles O9: of the cases of a step only the one on a reserved word is a refusal, and its equation gives the converse. -/
theorem refusedExactlyOnReservedLength : Obligations.RefusedExactlyOnReservedLength := by
  simp only [Obligations.RefusedExactlyOnReservedLength, ← lenOfBits_eq_none_iff_reserved]
  refine ⟨fun s => ?_, fun s p rest => step_of_reserved⟩
  rcases step_cases s with ⟨a, -, h⟩ | ⟨-, -, h⟩ | ⟨p, rest, -, -, -, h⟩ | ⟨p, rest, n, -, -, -, -, h⟩ |
    ⟨p, rest, hrom, hinp, hv, hn, h⟩
  · exact .inl ⟨_, h⟩
  · exact .inl ⟨_, h⟩
  · exact .inl ⟨_, h⟩
  · exact .inl ⟨_, h⟩
  · exact .inr ⟨hrom, p, rest, hinp, hv, hn, h⟩

/-- The three kinds of next state: the ROM's port is read, an entry with `in_valid = 0` is driven, or a beat leaves. -/
theorem next_cases {s t : State} (h : step s = .next t) :
    (∃ a, s.romAddr = some a ∧ t = answerRom (romRead a) (takeRomAddr s)) ∨
    (s.romAddr = none ∧ ∃ p rest, p.inValid = false ∧ t = noBeat (present p rest s)) ∨
    (s.romAddr = none ∧ ∃ p rest n, p.inValid = true ∧ lenOfBits p.inLen = some n ∧
      t = deliver (beat n p.inData) (present p rest s)) := by
  rcases step_cases s with ⟨a, hrom, hs⟩ | ⟨hrom, -, hs⟩ | ⟨p, rest, hrom, -, hv, hs⟩ |
    ⟨p, rest, n, hrom, -, hv, hn, hs⟩ | ⟨p, rest, -, -, -, -, hs⟩
  · cases hs.symm.trans h; exact .inl ⟨a, hrom, rfl⟩
  · cases hs.symm.trans h; exact .inr (.inl ⟨hrom, undriven s, [], rfl, rfl⟩)
  · cases hs.symm.trans h; exact .inr (.inl ⟨hrom, p, rest, hv, rfl⟩)
  · cases hs.symm.trans h; exact .inr (.inr ⟨hrom, p, rest, n, hv, hn, rfl⟩)
  · cases hs.symm.trans h

/-- Settles O34: a ROM read takes the address off the port; any other step finds none there and leaves the answer. -/
theorem romPortNeverDriven : Obligations.RomPortNeverDriven := by
  intro s t h
  rcases next_cases h with ⟨a, hrom, rfl⟩ | ⟨hrom, p, rest, -, rfl⟩ | ⟨hrom, p, rest, n, -, -, rfl⟩
  · exact ⟨rfl, by simp [hrom]⟩
  · exact ⟨hrom, fun _ => rfl⟩
  · exact ⟨hrom, fun _ => rfl⟩

/-! ## The observation invariant -/

theorem symbolCode_of_mem_serialise_beat {n : QLen} {data : Data} {b : Byte} (h : b ∈ serialise (beat n data)) :
    symbolCode b = true := by
  rw [serialise_beat, List.mem_ofFn] at h
  obtain ⟨i, rfl⟩ := h
  rw [← beatByte_beat, symbolCode_beatByte_beat]

namespace State.Inv

variable {s : State}

/-- A ROM read touches neither the ports nor `OUT`, and answers a ROM entry. -/
theorem answerRom_takeRomAddr (h : s.Inv) (a : Quintet) : (answerRom (romRead a) (takeRomAddr s)).Inv :=
  { h with rom_answer := fun _ hq => ⟨a, (Option.some.inj hq).symm⟩ }

/-- An evaluation with `in_valid = 0` leaves `OUT` and puts `out_valid = 0`. -/
theorem noBeat_present (h : s.Inv) {p : InPorts} (rest : List InPorts) (hv : p.inValid = false) :
    (noBeat (present p rest s)).Inv :=
  { h with
    valid_iff := hv.symm
    beat_out := by simp [hv]
    taken := nofun }

/-- A legal transaction puts its own beat on the port and eight alphabet symbols at the end of `OUT`. -/
theorem deliver_present (h : s.Inv) {p : InPorts} (rest : List InPorts) {n : QLen} (hv : p.inValid = true)
    (hn : lenOfBits p.inLen = some n) : (deliver (beat n p.inData) (present p rest s)).Inv where
  valid_iff := hv.symm
  beat_out := fun _ => ⟨n, hn, rfl⟩
  taken := fun _ => List.suffix_append _ _
  whole_beats := by
    have hwhole := h.whole_beats
    simp only [deliver_out, present_out, List.length_append, length_serialise]
    omega
  alphabet := fun b hb => (List.mem_append.mp hb).elim (h.alphabet b) symbolCode_of_mem_serialise_beat
  rom_answer := h.rom_answer

end State.Inv

/-- Settles O31: each kind of next state keeps the invariant. -/
theorem stepKeepsObservationSound : Obligations.StepKeepsObservationSound := by
  intro s t hinv h
  rcases next_cases h with ⟨a, -, rfl⟩ | ⟨-, p, rest, hv, rfl⟩ | ⟨-, p, rest, n, hv, hn, rfl⟩
  · exact hinv.answerRom_takeRomAddr a
  · exact hinv.noBeat_present rest hv
  · exact hinv.deliver_present rest hv hn

/-- Settles O32: nothing is valid, received or answered yet. -/
theorem resetObservationSound : Obligations.ResetObservationSound where
  valid_iff := rfl
  beat_out := nofun
  taken := nofun
  whole_beats := rfl
  alphabet := nofun
  rom_answer := nofun

/-- Settles O33: the fields are read off `State.reset`. -/
theorem resetContents : Obligations.ResetContents := ⟨rfl, rfl, rfl, rfl, rfl, rfl⟩

/-! ## Nothing left to present -/

/-- `t` follows `s` with nothing to present: `OUT` and the ROM port's answer are those of `s`. -/
structure State.Quiet (s t : State) : Prop where
  romAddr : t.romAddr = none
  pending : t.pending = []
  out : t.out = s.out
  romQ : t.romQ = s.romQ

/-- With nothing pending a step drives a pause, or nothing at all. -/
theorem step_of_pending_nil {s : State} (hrom : s.romAddr = none) (hpend : s.pending = []) :
    ∃ p rest, p.inValid = false ∧ rest.filter (fun q => q.inValid) = [] ∧
      step s = .next (noBeat (present p rest s)) := by
  cases hinp : s.inp with
  | nil => exact ⟨undriven s, [], rfl, rfl, by simp [step, fetch, hrom, hinp, evaluate]⟩
  | cons p rest =>
    obtain ⟨hv, hrest⟩ : p.inValid = false ∧ rest.filter (fun q => q.inValid) = [] := by
      simpa [State.pending, hinp] using hpend
    exact ⟨p, rest, hv, hrest, step_of_pause hrom hinp hv⟩

/-- A run at a quiet state whose latest evaluation presented nothing. -/
def Run.Idle (s : State) (r : Run) : Prop :=
  ∃ t, r = { state := t, refusal := none } ∧ s.Quiet t ∧ t.outPorts.outValid = false ∧ t.inPorts.inValid = false

theorem State.Quiet.idle_advance {s t : State} (h : s.Quiet t) :
    (Run.advance { state := t, refusal := none }).Idle s := by
  obtain ⟨p, rest, hv, hrest, hstep⟩ := step_of_pending_nil h.romAddr h.pending
  exact ⟨_, advance_of_next hstep, { h with pending := hrest }, rfl, hv⟩

theorem Run.Idle.advance {s : State} {r : Run} (h : r.Idle s) : r.advance.Idle s := by
  obtain ⟨t, rfl, hquiet, -, -⟩ := h
  exact hquiet.idle_advance

/-- Settles O8: the first step makes the run idle, and every further step keeps it so. -/
theorem nothingPresentedNothingAppended : Obligations.NothingPresentedNothingAppended := by
  intro s k hrom hpend
  have hstart : s.Quiet s := ⟨hrom, hpend, rfl, rfl⟩
  cases k with
  | zero => exact ⟨s, rfl, rfl, hpend, rfl, nofun⟩
  | succ k =>
    obtain ⟨t, hafter, hquiet, hout, hin⟩ :=
      after_induction (P := Run.Idle s) (fun _ => Run.Idle.advance) k hstart.idle_advance
    exact ⟨t, hafter, hquiet.out, hquiet.pending, hquiet.romQ, fun _ => ⟨hout, hin⟩⟩

/-! ## Frames -/

/-- Settles O28: an issuable instruction delivers a beat, which is all it does. -/
theorem transactionFrame : Obligations.TransactionFrame := by
  intro i s t hi h
  obtain ⟨b, hb⟩ := exec_issuable i s hi
  cases hb.symm.trans h
  exact ⟨rfl, rfl, rfl, rfl, rfl, rfl, rfl, by simp, fun j hj => List.getElem?_append_left hj⟩

/-- Settles O29: the read sets the port's answer alone, and a second read overwrites it. -/
theorem romrdFrame : Obligations.RomrdFrame := by
  refine ⟨fun a s t h => ?_, fun a b s t h => ?_⟩
  · cases (exec_romrd a s).symm.trans h
    exact ⟨rfl, rfl, rfl, rfl, rfl, rfl⟩
  · cases (exec_romrd a s).symm.trans h
    rfl

/-! ## The quintets determine the live bytes -/

theorem eq_of_quintet_eq {w w' : Data} (h : ∀ i, quintet w i = quintet w' i) : w = w' := by
  apply BitVec.eq_of_toNat_eq
  rw [toNat_eq_quintets w, toNat_eq_quintets w']
  simp only [h]

/-- The data-bearing quintets determine the others too, which are 0. -/
theorem quantumString_eq_of_quintet_eq {n : QLen} {data data' : Data}
    (h : ∀ i : Fin 8, i.val < dataCount n → quintet (quantumString n data) i = quintet (quantumString n data') i) :
    quantumString n data = quantumString n data' := by
  refine eq_of_quintet_eq fun i => ?_
  rcases Nat.lt_or_ge i.val (dataCount n) with hdata | hpad
  · exact h i hdata
  · rw [quintet_quantumString_of_pad data hpad, quintet_quantumString_of_pad data' hpad]

theorem lane_eq_of_quantumString_eq {n : QLen} {data data' : Data} (h : quantumString n data = quantumString n data')
    {k : Fin 5} (hk : k.val < n.toNat) : lane data k = lane data' k := by
  rw [← mbyte_live n data k hk, ← mbyte_live n data' k hk, ← lane_quantumString, ← lane_quantumString, h]

/-- Settles O17: the quintets determine the quantum string, which holds the live lanes, and for `Q5` is the input. -/
theorem quintetsDetermineLiveBytes : Obligations.QuintetsDetermineLiveBytes := by
  refine ⟨fun data data' h => ?_, fun n data data' h k => lane_eq_of_quantumString_eq (quantumString_eq_of_quintet_eq h)⟩
  rw [← quantumString_five data, ← quantumString_five data', eq_of_quintet_eq h]

/-! ## The alphabet of the output, and its input back from it -/

/-- Settles O47: a byte of the output is a symbol of the beat of some quantum of the partition. -/
theorem outputAlphabet : Obligations.OutputAlphabet := by
  intro bytes b hb
  rw [encodeBytes_eq_flatMap_beatBytes] at hb
  obtain ⟨p, hp, hb⟩ := List.mem_flatMap.mp hb
  obtain ⟨n, hn⟩ := exists_lenOfBits_of_mem_partition hp
  rw [beatBytes_of_lenOfBits hn] at hb
  exact symbolCode_of_mem_serialise_beat hb

theorem serialise_eq_ofFn (b : Beat) : serialise b = List.ofFn (beatByte b) := by
  simp [serialise, List.ofFn_succ]

theorem serialise_injective : Function.Injective serialise := by
  intro b b' h
  rw [serialise_eq_ofFn, serialise_eq_ofFn] at h
  have hbytes : beatByte b = beatByte b' := List.ofFn_injective h
  rw [← cat8_beatByte b, ← cat8_beatByte b', hbytes]

/-- A beat holds its quintets: the ROM has no two entries alike. -/
theorem quantumString_eq_of_beat_eq {n : QLen} {data data' : Data} (h : beat n data = beat n data') :
    quantumString n data = quantumString n data' := by
  refine quantumString_eq_of_quintet_eq fun i hi => romRead_injective ?_
  rw [← beatByte_beat_of_data data hi, ← beatByte_beat_of_data data' hi, h]

theorem beat_length_inj {m n : QLen} {data data' : Data} (h : beat m data = beat n data') : m = n :=
  dataCount_injective (Nat.le_antisymm (dataCount_le_of_beat_eq h.symm) (dataCount_le_of_beat_eq h))

theorem liveBytes_of_lenOfBits {p : InPorts} {n : QLen} (hn : lenOfBits p.inLen = some n) :
    liveBytes p = (List.ofFn (lane p.inData)).take n.toNat := by
  rw [← (lenOfBits_eq_some_iff_toNat _ _).mp hn]
  rfl

/-- The live bytes are those of the masked lanes. -/
theorem liveBytes_eq_take_quantumString {p : InPorts} {n : QLen} (hn : lenOfBits p.inLen = some n) :
    liveBytes p = (List.ofFn (lane (quantumString n p.inData))).take n.toNat := by
  rw [liveBytes_of_lenOfBits hn]
  refine List.ext_getElem (by simp) fun k hk _ => ?_
  have hlive : k < n.toNat := Nat.lt_of_lt_of_le hk (List.length_take_le _ _)
  simp only [List.getElem_take, List.getElem_ofFn, lane_quantumString]
  exact (mbyte_live n p.inData _ hlive).symm

/-- Two legal transactions with one beat carry the same bytes. -/
theorem liveBytes_eq_of_beatBytes_eq {p q : InPorts} {m n : QLen} (hm : lenOfBits p.inLen = some m)
    (hn : lenOfBits q.inLen = some n) (h : beatBytes p = beatBytes q) : liveBytes p = liveBytes q := by
  rw [beatBytes_of_lenOfBits hm, beatBytes_of_lenOfBits hn] at h
  have hbeat := serialise_injective h
  obtain rfl := beat_length_inj hbeat
  rw [liveBytes_eq_take_quantumString hm, liveBytes_eq_take_quantumString hn, quantumString_eq_of_beat_eq hbeat]

theorem length_beatBytes {p : InPorts} {n : QLen} (hn : lenOfBits p.inLen = some n) : (beatBytes p).length = 8 := by
  rw [beatBytes_of_lenOfBits hn, length_serialise]

/-- The beats of legal transactions, eight bytes each, determine the bytes that the transactions carry. -/
theorem flatMap_liveBytes_eq_of_flatMap_beatBytes_eq {l l' : List InPorts}
    (hl : ∀ p ∈ l, ∃ n, lenOfBits p.inLen = some n) (hl' : ∀ p ∈ l', ∃ n, lenOfBits p.inLen = some n)
    (h : l.flatMap beatBytes = l'.flatMap beatBytes) : l.flatMap liveBytes = l'.flatMap liveBytes := by
  have hlen := congrArg List.length h
  rw [length_flatMap_beatBytes hl, length_flatMap_beatBytes hl'] at hlen
  induction l generalizing l' with
  | nil =>
    obtain rfl : l' = [] := by simpa using hlen.symm
    rfl
  | cons p rest ih =>
    cases l' with
    | nil => simp at hlen
    | cons q rest' =>
      obtain ⟨⟨m, hm⟩, hrest⟩ := List.forall_mem_cons.mp hl
      obtain ⟨⟨n, hn⟩, hrest'⟩ := List.forall_mem_cons.mp hl'
      simp only [List.flatMap_cons] at h ⊢
      obtain ⟨hhead, htail⟩ := List.append_inj h ((length_beatBytes hm).trans (length_beatBytes hn).symm)
      rw [liveBytes_eq_of_beatBytes_eq hm hn hhead, ih hrest hrest' htail (by simpa using hlen)]

/-- Settles O48: the beats of the two partitions are the same, so are the bytes they carry, and those are the inputs. -/
theorem differentInputsDifferentOutputs : Obligations.DifferentInputsDifferentOutputs := by
  intro bytes bytes' h
  rw [encodeBytes_eq_flatMap_beatBytes, encodeBytes_eq_flatMap_beatBytes] at h
  rw [← flatMap_liveBytes_partition bytes, ← flatMap_liveBytes_partition bytes']
  exact flatMap_liveBytes_eq_of_flatMap_beatBytes_eq (fun _ => exists_lenOfBits_of_mem_partition)
    (fun _ => exists_lenOfBits_of_mem_partition) h

/-! ## The bit-string reference -/

/-- Field `i` of a bit string, with zeros past its end. -/
def bitField (bits : List Bool) (i : Nat) : Nat :=
  bitsValue [bits.getD (5 * i) false, bits.getD (5 * i + 1) false, bits.getD (5 * i + 2) false,
    bits.getD (5 * i + 3) false, bits.getD (5 * i + 4) false]

theorem bitFields_eq_map (bits : List Bool) :
    bitFields bits = (List.range ((bits.length + 4) / 5)).map (bitField bits) := by
  fun_induction bitFields bits with
  | case6 a b c d e rest ih =>
    have hcount : ((a :: b :: c :: d :: e :: rest).length + 4) / 5 = (rest.length + 4) / 5 + 1 := by
      simp only [List.length_cons]; omega
    rw [hcount, List.range_succ_eq_map, List.map_cons, List.map_map, ih]
    rfl
  | _ => simp [bitField]

theorem bitFields_append {pre : List Bool} (suf : List Bool) (h : pre.length % 5 = 0) :
    bitFields (pre ++ suf) = bitFields pre ++ bitFields suf := by
  fun_induction bitFields pre with
  | case1 => rfl
  | case6 a b c d e rest ih =>
    have hrest : rest.length % 5 = 0 := by simp only [List.length_cons] at h; omega
    simp only [List.cons_append, bitFields, ih hrest]
  | _ => simp at h

theorem length_flatMap_byteBits (bytes : List Byte) : (bytes.flatMap byteBits).length = 8 * bytes.length := by
  have hbyte (b : Byte) : (byteBits b).length = 8 := rfl
  simp [List.length_flatMap, hbyte, Nat.mul_comm]

/-- Bit `j` of a byte sequence, the first byte's bit 7 first (rule R24). -/
theorem getD_flatMap_byteBits (bytes : List Byte) (j : Nat) :
    (bytes.flatMap byteBits).getD j false = (bytes.getD (j / 8) 0#8).getLsbD (7 - j % 8) := by
  induction bytes generalizing j with
  | nil => simp
  | cons b rest ih =>
    have hlen : (byteBits b).length = 8 := rfl
    rw [List.flatMap_cons]
    rcases Nat.lt_or_ge j 8 with hj | hj
    · rw [List.getD_append _ _ _ _ (by omega), Nat.div_eq_of_lt hj]
      interval_cases j <;> rfl
    · have hbyte : j / 8 = (j - 8) / 8 + 1 := by omega
      have hbit : j % 8 = (j - 8) % 8 := by omega
      rw [List.getD_append_right _ _ _ _ (by omega), hlen, ih, hbyte, hbit, List.getD_cons_succ]

/-- The reference is its fields, each mapped to its character, and as many `=` as `padCount` says. -/
theorem referenceEncode_eq (bytes : List Byte) :
    referenceEncode bytes =
      (bitFields (bytes.flatMap byteBits)).map alphabetByte ++ List.replicate (padCount bytes.length) padCode := by
  simp only [referenceEncode, bitFields_eq_map, List.length_map, List.length_range, length_flatMap_byteBits, padCount]

/-- The reference over whole quanta followed by other bytes: forty bits are eight fields, and no `=` comes after them. -/
theorem referenceEncode_append {pre : List Byte} (suf : List Byte) (h : pre.length % 5 = 0) :
    referenceEncode (pre ++ suf) = referenceEncode pre ++ referenceEncode suf := by
  have hbits : (pre.flatMap byteBits).length % 5 = 0 := by rw [length_flatMap_byteBits]; omega
  have hpre : padCount pre.length = 0 := by simp only [padCount, quantumCount]; omega
  have hsuf : padCount (pre ++ suf).length = padCount suf.length := by
    simp only [padCount, quantumCount, List.length_append]; omega
  simp only [referenceEncode_eq, hpre, hsuf, List.flatMap_append, bitFields_append _ hbits, List.map_append,
    List.replicate_zero, List.append_nil, List.append_assoc]

theorem toNat_eq_bitsValue (q : Quintet) :
    q.toNat = bitsValue [q.getLsbD 4, q.getLsbD 3, q.getLsbD 2, q.getLsbD 1, q.getLsbD 0] := by
  revert q
  decide

theorem alphabetByte_toNat (q : Quintet) : alphabetByte q.toNat = romRead q := by
  revert q
  decide

section LiveBytes

variable {p : InPorts} {n : QLen} (hn : lenOfBits p.inLen = some n)

include hn

theorem length_liveBytes : (liveBytes p).length = n.toNat := by
  have hle : n.toNat ≤ 5 := by cases n <;> decide
  simpa [liveBytes_of_lenOfBits hn] using hle

/-- The live bytes followed by zeros are the lanes of the quantum string. -/
theorem getD_liveBytes (k : Fin 5) : (liveBytes p).getD k 0#8 = lane (quantumString n p.inData) k := by
  have hlen := length_liveBytes hn
  rcases Nat.lt_or_ge k.val n.toNat with hlive | hdead
  · rw [List.getD_eq_getElem _ _ (by omega)]
    simp only [liveBytes_eq_take_quantumString hn, List.getElem_take, List.getElem_ofFn]
  · rw [List.getD_eq_default _ _ (by omega), lane_quantumString, mbyte_dead _ _ _ hdead]

/-- The bits of the live bytes followed by zeros are the quantum string, bit 39 first. -/
theorem getD_liveBits {j : Nat} (hj : j < 40) :
    ((liveBytes p).flatMap byteBits).getD j false = (quantumString n p.inData).getLsbD (39 - j) := by
  have hbyte := getD_liveBytes hn ⟨j / 8, by omega⟩
  have hplace : 32 - 8 * (j / 8) + (7 - j % 8) = 39 - j := by omega
  have hbit : 7 - j % 8 < 8 := by omega
  rw [getD_flatMap_byteBits, hbyte, getLsbD_lane, hplace, decide_eq_true hbit, Bool.true_and]

/-- So the fields are the quintets. -/
theorem bitField_liveBits (i : Fin 8) :
    bitField ((liveBytes p).flatMap byteBits) i = (quintet (quantumString n p.inData) i).toNat := by
  have hbit (m : Nat) (hm : m < 5) : ((liveBytes p).flatMap byteBits).getD (5 * i.val + m) false =
      (quintet (quantumString n p.inData) i).getLsbD (4 - m) := by
    have hplace : 39 - (5 * i.val + m) = 35 - 5 * i.val + (4 - m) := by omega
    have hlt : 4 - m < 5 := by omega
    rw [getD_liveBits hn (by omega), getLsbD_quintet, hplace, decide_eq_true hlt, Bool.true_and]
  rw [toNat_eq_bitsValue, bitField, hbit 1 (by decide), hbit 2 (by decide), hbit 3 (by decide), hbit 4 (by decide)]
  exact congrArg (fun b => bitsValue (b :: _)) (hbit 0 (by decide))

/-- The reference over one quantum is its beat, field by field. -/
theorem referenceEncode_liveBytes : referenceEncode (liveBytes p) = beatBytes p := by
  have hcount : (8 * n.toNat + 4) / 5 = dataCount n := rfl
  have hle := dataCount_le_eight n
  rw [referenceEncode_eq, bitFields_eq_map, length_flatMap_byteBits, length_liveBytes hn, hcount, padCount_toNat,
    beatBytes_of_lenOfBits hn, serialise_beat]
  refine List.ext_getElem (by simp; omega) fun i _ hi => ?_
  rw [List.length_ofFn] at hi
  rw [List.getElem_ofFn]
  rcases Nat.lt_or_ge i (dataCount n) with hdata | hpad
  · rw [List.getElem_append_left (by simpa using hdata), ← beatByte_beat, beatByte_beat_of_data _ hdata,
      ← alphabetByte_toNat, ← bitField_liveBits hn]
    simp
  · rw [List.getElem_append_right (by simpa using hpad), List.getElem_replicate]
    exact ((symbol_eq_padCode_iff n _ _).mpr hpad).symm

end LiveBytes

/-- An input of 1 to 5 bytes is one quantum, and its encoding is the reference. -/
theorem encodeBytes_eq_referenceEncode_of_le_five {bytes : List Byte} (hpos : 0 < bytes.length)
    (hle : bytes.length ≤ 5) : encodeBytes bytes = referenceEncode bytes := by
  have hone : quantumCount bytes.length = 1 := by simp only [quantumCount]; omega
  have hpart : partition bytes = [quantumAt bytes 0] := by simp [partition, hone]
  obtain ⟨n, hn⟩ := exists_lenOfBits_of_mem_partition (bytes := bytes) (p := quantumAt bytes 0) (by simp [hpart])
  have hlive : liveBytes (quantumAt bytes 0) = bytes := by
    simpa only [hpart, List.flatMap_singleton] using flatMap_liveBytes_partition bytes
  rw [encodeBytes_eq_flatMap_beatBytes, hpart, List.flatMap_singleton, ← referenceEncode_liveBytes hn, hlive]

/-- Settles O50: both encodings split after whole quanta, and agree on one quantum. -/
theorem encodeMeetsBitStringReference : Obligations.EncodeMeetsBitStringReference := by
  intro bytes
  induction bytes using expandEncode.induct with
  | case1 => rfl
  | case6 b0 b1 b2 b3 b4 rest ih =>
    have hfull : encodeBytes [b0, b1, b2, b3, b4] = referenceEncode [b0, b1, b2, b3, b4] :=
      encodeBytes_eq_referenceEncode_of_le_five (by simp) (by simp)
    calc encodeBytes ([b0, b1, b2, b3, b4] ++ rest)
      _ = encodeBytes [b0, b1, b2, b3, b4] ++ encodeBytes rest := encodeBytes_append rest (by simp)
      _ = referenceEncode [b0, b1, b2, b3, b4] ++ referenceEncode rest := by rw [hfull, ih]
      _ = referenceEncode ([b0, b1, b2, b3, b4] ++ rest) := (referenceEncode_append rest (by simp)).symm
  | _ => exact encodeBytes_eq_referenceEncode_of_le_five (by simp) (by simp)

end Sys2Proof.Machine
end
